-- ==== Sys2Proof/Word.lean ====
section
/-! DEFINITION. The word types of the machine (spec/10_state.md R30, R33, R36; spec/30_encoding.md R101). -/

namespace Sys2Proof

/-- A memory byte, a general register, a timer, an 8-bit immediate (R12: every value is unsigned). -/
abbrev Byte := BitVec 8

/-- An instruction word, the program counter, the index register. -/
abbrev Word := BitVec 16

/-- A 4-bit field of an instruction word. -/
abbrev Nibble := BitVec 4

/-- The 12-bit address field NNN. -/
abbrev Addr12 := BitVec 12

/-- The name of a general register, `V0` to `VF` (R30). -/
abbrev Reg := Fin 16

/-- The name of a key of the input latch, 0 to 15 (R40, R331). -/
abbrev Key := Fin 16

/-- The flag register (R31). -/
abbrev VF : Reg := 15

end Sys2Proof
end

