-- ==== Sys2Proof/Config.lean ====
section
/-! DEFINITION. What an implementation fixes (spec/00_scope.md R6) and the one free value of the model (R9). The values this hardware gives the parameters stand in Machine/Params.lean. -/

namespace Sys2Proof

/-- The effect of the native call 0NNN (R6, spec/41_control_transfer.md R162, D11). -/
inductive NativeCallMode where
  /-- 0NNN only advances the program counter. -/
  | nop
  /-- 0NNN pushes the return address and jumps, as CALL does. -/
  | call
  deriving DecidableEq, Repr

/-- What becomes of an off-screen sprite pixel (R6, spec/45_display.md R273, D12). -/
inductive DrawEdge where
  /-- It is not drawn and does not collide. -/
  | clip
  /-- Its coordinates are taken modulo the screen's size. -/
  | wrap
  deriving DecidableEq, Repr

/-- The parameters of R6 whose value the source does not state, with the glyph table's place and shape. -/
structure Params where
  memSize : Nat
  glyphBase : Nat
  glyphBytes : Nat
  glyphCount : Nat
  glyphData : List Byte
  progOffset : Nat
  reservedBase : Nat
  stackBase : Nat
  stackDepth : Nat
  nativeCall : NativeCallMode
  drawEdge : DrawEdge
  deriving DecidableEq, Repr

/-- FREE VALUE: the random byte of the `n`-th CXNN draw (R9, R222, D19: "a free draw of the step"). It has no body, so nothing
can be proved of its value; log 3. -/
opaque Config.rnd : Nat → Byte

end Sys2Proof
end

