-- ==== Sys2Proof/Syntax.lean ====
section
/-! DEFINITION. The instructions (spec/30_encoding.md R103, R104, R120): one constructor per row of spec/opcode_table.json, named after R104's variants. -/

namespace Sys2Proof

/-- An instruction. `x` and `y` name registers, `nnn` is an absolute byte address, `nn` an 8-bit immediate, `n` a row count. -/
inductive Instr where
  /-- 00E0 `CLS` -/
  | cls
  /-- 00EE `RET` -/
  | ret
  /-- 0NNN `SYS 0xNNN`, every class-0 word but 00E0 and 00EE -/
  | sys (nnn : Addr12)
  /-- 1NNN `JP 0xNNN` -/
  | jp (nnn : Addr12)
  /-- 2NNN `CALL 0xNNN` -/
  | call (nnn : Addr12)
  /-- 3XNN `SE VX, 0xNN` -/
  | seImm (x : Reg) (nn : Byte)
  /-- 4XNN `SNE VX, 0xNN` -/
  | sneImm (x : Reg) (nn : Byte)
  /-- 5XY0 `SE VX, VY` -/
  | seReg (x y : Reg)
  /-- 6XNN `LD VX, 0xNN` -/
  | ldImm (x : Reg) (nn : Byte)
  /-- 7XNN `ADD VX, 0xNN` -/
  | addImm (x : Reg) (nn : Byte)
  /-- 8XY0 `LD VX, VY` -/
  | movReg (x y : Reg)
  /-- 8XY1 `OR VX, VY` -/
  | orReg (x y : Reg)
  /-- 8XY2 `AND VX, VY` -/
  | andReg (x y : Reg)
  /-- 8XY3 `XOR VX, VY` -/
  | xorReg (x y : Reg)
  /-- 8XY4 `ADD VX, VY` -/
  | addReg (x y : Reg)
  /-- 8XY5 `SUB VX, VY` -/
  | subReg (x y : Reg)
  /-- 8XY6 `SHR VX, VY`; Y is ignored (R106) -/
  | shrReg (x y : Reg)
  /-- 8XY7 `SUBN VX, VY` -/
  | subnReg (x y : Reg)
  /-- 8XYE `SHL VX, VY`; Y is ignored (R106) -/
  | shlReg (x y : Reg)
  /-- 9XY0 `SNE VX, VY` -/
  | sneReg (x y : Reg)
  /-- ANNN `LD I, 0xNNN` -/
  | ldI (nnn : Addr12)
  /-- BNNN `JP V0, 0xNNN` -/
  | jpV0 (nnn : Addr12)
  /-- CXNN `RND VX, 0xNN` -/
  | rnd (x : Reg) (nn : Byte)
  /-- DXYN `DRW VX, VY, 0xN` -/
  | drw (x y : Reg) (n : Nibble)
  /-- EX9E `SKP VX` -/
  | skp (x : Reg)
  /-- EXA1 `SKNP VX` -/
  | sknp (x : Reg)
  /-- FX07 `LD VX, DT` -/
  | ldXDt (x : Reg)
  /-- FX0A `LD VX, K` -/
  | ldXK (x : Reg)
  /-- FX15 `LD DT, VX` -/
  | ldDtX (x : Reg)
  /-- FX18 `LD ST, VX` -/
  | ldStX (x : Reg)
  /-- FX1E `ADD I, VX` -/
  | addIX (x : Reg)
  /-- FX29 `LD F, VX` -/
  | ldFX (x : Reg)
  /-- FX33 `LD B, VX` -/
  | ldBX (x : Reg)
  /-- FX55 `LD [I], VX` -/
  | ldMemX (x : Reg)
  /-- FX65 `LD VX, [I]` -/
  | ldXMem (x : Reg)
  /-- FXFF `HALT`; X is ignored, any value of it decodes to this one instruction (R104, R106) -/
  | halt
  deriving DecidableEq, Repr

end Sys2Proof
end

