-- ==== Sys2Proof/WellFormed.lean ====
section
/-! DEFINITION. Which instructions have an encoding of their own (spec/30_encoding.md R105), and the constraints on the parameters (spec/00_scope.md R6). -/

namespace Sys2Proof

/-- A `SYS` whose address would make its word 00E0 or 00EE is no instruction: those words are CLS and RET (R105). Every other
operand is bounded by its type. -/
def Instr.wellFormed : Instr → Bool
  | .sys nnn => nnn != 0x0E0#12 && nnn != 0x0EE#12
  | _ => true

/-- "Constraints a model must check on its arguments" (R6), and the length of the glyph data (R56). -/
def Params.wellFormed (p : Params) : Bool :=
  decide (p.glyphBase + p.glyphCount * p.glyphBytes ≤ p.progOffset)
    && decide (p.progOffset ≤ p.reservedBase)
    && decide (p.reservedBase ≤ p.stackBase)
    && decide (p.stackBase + 2 * p.stackDepth ≤ p.memSize)
    && decide (p.memSize ≤ 2 ^ 16)
    && decide (2 * p.stackDepth < 2 ^ 8)
    && p.glyphData.length == p.glyphCount * p.glyphBytes

end Sys2Proof
end

