-- ==== Sys2Proof/Decode.lean ====
section
/-! DEFINITION. The decoder (spec/30_encoding.md R101, R104 to R107), total on any bytes, and after it the encoder. -/

namespace Sys2Proof

/-! ## Fields of an instruction word (R101) -/

/-- The operation class `C = w[15:12]`. -/
def classField (w : Word) : Nibble := w.extractLsb' 12 4

/-- The first register index `X = w[11:8]`. -/
def xField (w : Word) : Reg := (w.extractLsb' 8 4).toFin

/-- The second register index `Y = w[7:4]`. -/
def yField (w : Word) : Reg := (w.extractLsb' 4 4).toFin

/-- The sub-operation or row count `N = w[3:0]`. -/
def nField (w : Word) : Nibble := w.extractLsb' 0 4

/-- The immediate or sub-selector `NN = w[7:0]`. -/
def nnField (w : Word) : Byte := w.extractLsb' 0 8

/-- The address `NNN = w[11:0]`. -/
def nnnField (w : Word) : Addr12 := w.extractLsb' 0 12

/-! ## Byte order (spec/20_memory.md R74, R75) -/

/-- The big-endian 16-bit value of two bytes, the one at the lower address first. -/
def wordOfBytes (hi lo : Byte) : Word := hi ++ lo

/-- `r[15:8]`, the byte that lies at the lower address. -/
def hiByte (r : Word) : Byte := r.extractLsb' 8 8

/-- `r[7:0]`, the byte that lies at the higher address. -/
def loByte (r : Word) : Byte := r.extractLsb' 0 8

/-! ## The decode function (R104): `none` is the variant `Invalid` -/

/-- Class 8: the register-register operations, selected by N. -/
def decodeClass8 (x y : Reg) (n : Nibble) : Option Instr :=
  if n = 0x0#4 then some (.movReg x y)
  else if n = 0x1#4 then some (.orReg x y)
  else if n = 0x2#4 then some (.andReg x y)
  else if n = 0x3#4 then some (.xorReg x y)
  else if n = 0x4#4 then some (.addReg x y)
  else if n = 0x5#4 then some (.subReg x y)
  else if n = 0x6#4 then some (.shrReg x y)
  else if n = 0x7#4 then some (.subnReg x y)
  else if n = 0xE#4 then some (.shlReg x y)
  else none

/-- Class E: the key tests, selected by NN. -/
def decodeClassE (x : Reg) (nn : Byte) : Option Instr :=
  if nn = 0x9E#8 then some (.skp x)
  else if nn = 0xA1#8 then some (.sknp x)
  else none

/-- Class F: ten operations, selected by NN. -/
def decodeClassF (x : Reg) (nn : Byte) : Option Instr :=
  if nn = 0x07#8 then some (.ldXDt x)
  else if nn = 0x0A#8 then some (.ldXK x)
  else if nn = 0x15#8 then some (.ldDtX x)
  else if nn = 0x18#8 then some (.ldStX x)
  else if nn = 0x1E#8 then some (.addIX x)
  else if nn = 0x29#8 then some (.ldFX x)
  else if nn = 0x33#8 then some (.ldBX x)
  else if nn = 0x55#8 then some (.ldMemX x)
  else if nn = 0x65#8 then some (.ldXMem x)
  else if nn = 0xFF#8 then some .halt
  else none

/-- Class 0 matches on the whole word (R105, C4). -/
def decodeClass0 (w : Word) : Option Instr :=
  if w = 0x00E0#16 then some .cls
  else if w = 0x00EE#16 then some .ret
  else some (.sys (nnnField w))

/-- The decoder, pure and total: R104's case distinction on the operation class. -/
def decode (w : Word) : Option Instr :=
  if classField w = 0x0#4 then decodeClass0 w
  else if classField w = 0x1#4 then some (.jp (nnnField w))
  else if classField w = 0x2#4 then some (.call (nnnField w))
  else if classField w = 0x3#4 then some (.seImm (xField w) (nnField w))
  else if classField w = 0x4#4 then some (.sneImm (xField w) (nnField w))
  else if classField w = 0x5#4 then
    if nField w = 0x0#4 then some (.seReg (xField w) (yField w)) else none
  else if classField w = 0x6#4 then some (.ldImm (xField w) (nnField w))
  else if classField w = 0x7#4 then some (.addImm (xField w) (nnField w))
  else if classField w = 0x8#4 then decodeClass8 (xField w) (yField w) (nField w)
  else if classField w = 0x9#4 then
    if nField w = 0x0#4 then some (.sneReg (xField w) (yField w)) else none
  else if classField w = 0xA#4 then some (.ldI (nnnField w))
  else if classField w = 0xB#4 then some (.jpV0 (nnnField w))
  else if classField w = 0xC#4 then some (.rnd (xField w) (nnField w))
  else if classField w = 0xD#4 then some (.drw (xField w) (yField w) (nField w))
  else if classField w = 0xE#4 then decodeClassE (xField w) (nnField w)
  else decodeClassF (xField w) (nnField w)

/-- Why the bytes at hand are no instruction. -/
inductive DecodeReject where
  /-- Fewer than two bytes are left: an instruction is always 2 bytes (R100). -/
  | truncated
  /-- The word is illegal (R107). -/
  | invalid (w : Word)
  deriving DecidableEq, Repr

/-- The instruction at the head of a byte string, with the rest of the string (R100: the length is always 2 bytes). -/
def decodeBytes : List Byte → Except DecodeReject (Instr × List Byte)
  | hi :: lo :: rest =>
    match decode (wordOfBytes hi lo) with
    | some i => .ok (i, rest)
    | none => .error (.invalid (wordOfBytes hi lo))
  | _ => .error .truncated

/-- What the decoder reads from an instruction whose bits are `w`, numbered as spec/opcode_table.json numbers them; bits from
`nbits` on are 0. The word is laid out big-endian, as the hardware stores it (R74). -/
def decodeTableWord (nbits w : Nat) : Option Instr :=
  match decodeBytes [hiByte (BitVec.ofNat 16 (w % 2 ^ nbits)), loByte (BitVec.ofNat 16 (w % 2 ^ nbits))] with
  | .ok (i, _) => some i
  | .error _ => none

/-! ## The encoder, from the layouts of R103 and the codes of R104 -/

/-- The four bits that name a register. -/
def regBits (r : Reg) : Nibble := BitVec.ofFin r

/-- Format FA: `C NNN`. -/
def layoutFA (c : Nibble) (nnn : Addr12) : Word := c ++ nnn

/-- Formats FXI and FX: `C X NN`. -/
def layoutFXI (c : Nibble) (x : Reg) (nn : Byte) : Word := c ++ regBits x ++ nn

/-- Formats FXY and FXYN: `C X Y N`. -/
def layoutFXYN (c : Nibble) (x y : Reg) (n : Nibble) : Word := c ++ regBits x ++ regBits y ++ n

/-- The word of a well-formed instruction. HALT is written F0FF (R120). -/
def encode : Instr → Word
  | .cls => 0x00E0#16
  | .ret => 0x00EE#16
  | .sys nnn => layoutFA 0x0#4 nnn
  | .jp nnn => layoutFA 0x1#4 nnn
  | .call nnn => layoutFA 0x2#4 nnn
  | .seImm x nn => layoutFXI 0x3#4 x nn
  | .sneImm x nn => layoutFXI 0x4#4 x nn
  | .seReg x y => layoutFXYN 0x5#4 x y 0x0#4
  | .ldImm x nn => layoutFXI 0x6#4 x nn
  | .addImm x nn => layoutFXI 0x7#4 x nn
  | .movReg x y => layoutFXYN 0x8#4 x y 0x0#4
  | .orReg x y => layoutFXYN 0x8#4 x y 0x1#4
  | .andReg x y => layoutFXYN 0x8#4 x y 0x2#4
  | .xorReg x y => layoutFXYN 0x8#4 x y 0x3#4
  | .addReg x y => layoutFXYN 0x8#4 x y 0x4#4
  | .subReg x y => layoutFXYN 0x8#4 x y 0x5#4
  | .shrReg x y => layoutFXYN 0x8#4 x y 0x6#4
  | .subnReg x y => layoutFXYN 0x8#4 x y 0x7#4
  | .shlReg x y => layoutFXYN 0x8#4 x y 0xE#4
  | .sneReg x y => layoutFXYN 0x9#4 x y 0x0#4
  | .ldI nnn => layoutFA 0xA#4 nnn
  | .jpV0 nnn => layoutFA 0xB#4 nnn
  | .rnd x nn => layoutFXI 0xC#4 x nn
  | .drw x y n => layoutFXYN 0xD#4 x y n
  | .skp x => layoutFXI 0xE#4 x 0x9E#8
  | .sknp x => layoutFXI 0xE#4 x 0xA1#8
  | .ldXDt x => layoutFXI 0xF#4 x 0x07#8
  | .ldXK x => layoutFXI 0xF#4 x 0x0A#8
  | .ldDtX x => layoutFXI 0xF#4 x 0x15#8
  | .ldStX x => layoutFXI 0xF#4 x 0x18#8
  | .addIX x => layoutFXI 0xF#4 x 0x1E#8
  | .ldFX x => layoutFXI 0xF#4 x 0x29#8
  | .ldBX x => layoutFXI 0xF#4 x 0x33#8
  | .ldMemX x => layoutFXI 0xF#4 x 0x55#8
  | .ldXMem x => layoutFXI 0xF#4 x 0x65#8
  | .halt => layoutFXI 0xF#4 0 0xFF#8

/-- The bytes of an instruction in the order they lie in Memory. -/
def encodeBytes (i : Instr) : List Byte := [hiByte (encode i), loByte (encode i)]

end Sys2Proof
end

