-- ==== Sys2Proof/Machine/Params.lean ====
section
/-! DEFINITION. The values this hardware gives the parameters of spec/00_scope.md R6, and what Memory holds after construction (spec/10_state.md R55, R56). Log 1 and log 2. -/

namespace Sys2Proof.Machine

/-- `MEM_SIZE` (R6, D1). -/
def memSize : Nat := 0x1000

/-- `GLYPH_BASE` (R6). -/
def glyphBase : Nat := 0x000

/-- `GLYPH_BYTES` (R6). -/
def glyphBytes : Nat := 5

/-- `GLYPH_COUNT` (R6). -/
def glyphCount : Nat := 16

/-- `GLYPH_LEN`, the length of the glyph table (R6). -/
def glyphLen : Nat := 80

/-- `PROG_OFFSET` (R6, D2). -/
def progOffset : Nat := 0x200

/-- `RESERVED_BASE` (R6, D4). -/
def reservedBase : Nat := 0xEA0

/-- `PROG_WINDOW`, the longest program image (R6: `RESERVED_BASE - PROG_OFFSET`). -/
def progWindow : Nat := reservedBase - progOffset

/-- `STACK_BASE` (R6, D5). -/
def stackBase : Nat := 0xEA0

/-- `STACK_DEPTH` (R6, D5). -/
def stackDepth : Nat := 16

/-- `NATIVE_CALL_MODE` (R6, R162, D11, C9). -/
def nativeCallMode : NativeCallMode := .nop

/-- `DRAW_EDGE` (R6, R273, D12). -/
def drawEdge : DrawEdge := .clip

/-- `GLYPH_DATA` (R56, D3): glyphs 0 to F, five bytes each, top row first. -/
def glyphData : List Byte :=
  [0xF0, 0x90, 0x90, 0x90, 0xF0] ++ [0x20, 0x60, 0x20, 0x20, 0x70] ++
  [0xF0, 0x10, 0xF0, 0x80, 0xF0] ++ [0xF0, 0x10, 0xF0, 0x10, 0xF0] ++
  [0x90, 0x90, 0xF0, 0x10, 0x10] ++ [0xF0, 0x80, 0xF0, 0x10, 0xF0] ++
  [0xF0, 0x80, 0xF0, 0x90, 0xF0] ++ [0xF0, 0x10, 0x20, 0x40, 0x40] ++
  [0xF0, 0x90, 0xF0, 0x90, 0xF0] ++ [0xF0, 0x90, 0xF0, 0x10, 0xF0] ++
  [0xF0, 0x90, 0xF0, 0x90, 0x90] ++ [0xE0, 0x90, 0xE0, 0x90, 0xE0] ++
  [0xF0, 0x80, 0x80, 0x80, 0xF0] ++ [0xE0, 0x90, 0x90, 0x90, 0xE0] ++
  [0xF0, 0x80, 0xF0, 0x80, 0xF0] ++ [0xF0, 0x80, 0xF0, 0x80, 0x80]

/-- The parameters as one record, for the constraints of R6. -/
def params : Params :=
  { memSize := memSize, glyphBase := glyphBase, glyphBytes := glyphBytes, glyphCount := glyphCount,
    glyphData := glyphData, progOffset := progOffset, reservedBase := reservedBase, stackBase := stackBase,
    stackDepth := stackDepth, nativeCall := nativeCallMode, drawEdge := drawEdge }

/-- Is `a` an address of the glyph table (R73)? -/
def isGlyphAddr (a : Nat) : Bool := decide (glyphBase ≤ a) && decide (a < glyphBase + glyphLen)

/-- What a byte holds after construction, and so what an unlisted address reads as: the glyph data in the glyph table, 0
everywhere else (R55, R56). -/
def unlistedByte (a : Nat) : Byte :=
  if isGlyphAddr a then glyphData.getD (a - glyphBase) 0 else 0

end Sys2Proof.Machine
end

