-- ==== Sys2Proof/Machine/State.lean ====
section
/-! DEFINITION. The state of the core (spec/10_state.md), its faults (spec/60_exceptions.md R310 to R314), and its value after construction (R55). Plain data throughout. -/

namespace Sys2Proof.Machine

/-- The kinds of MemoryFault (R312). -/
inductive MemoryFaultKind where
  /-- Raised by the fetch, DXYN, FX33, FX55 and FX65: an accessed address is `≥ MEM_SIZE` (R76, R77). Safe: the spec's own fault. -/
  | outOfBounds
  /-- Raised by any instruction whose `next_pc` is `≥ MEM_SIZE` (R147, D7). Safe: if the hardware wrapped, the model stops where it runs on. -/
  | pcOutOfRange
  /-- Raised by a push on a full stack: 2NNN, and 0NNN in `Call` mode (R160). Safe: the spec's own fault. -/
  | stackOverflow
  /-- Raised by a pop from an empty stack: 00EE (R160). Safe: the spec's own fault. -/
  | stackUnderflow
  /-- Raised by FX33 and FX55 when they write the glyph table (R78, D23). Safe: the model stops where a hardware might run. -/
  | glyphWrite
  /-- Raised by FX1E, FX55 and FX65 when I would pass 0xFFFF (R241, D16). Safe: the model stops where a hardware might wrap. -/
  | indexOverflow
  deriving DecidableEq, Repr

/-- The kinds of OperandFault (R314). -/
inductive OperandFaultKind where
  /-- Raised by EX9E and EXA1 when `V[X] > 15` (R186, D17). Safe: the model stops where a hardware might run. -/
  | keyIndex
  /-- Raised by FX29 when `V[X] > 15` (R246, D17). Safe: the model stops where a hardware might run. -/
  | glyphIndex
  deriving DecidableEq, Repr

/-- Class and kind of a step fault (R310, R311). -/
inductive FaultCause where
  /-- MemoryFault, class code 1. -/
  | memory (kind : MemoryFaultKind)
  /-- IllegalInstruction, class code 2; it has no kind (R313). Raised by the step on a word that decodes to `Invalid`. Safe. -/
  | illegalInstruction
  /-- OperandFault, class code 3. -/
  | operand (kind : OperandFaultKind)
  deriving DecidableEq, Repr

/-- A step fault: the record `{class, kind, pc, word, addr}` of R311, which is also the value of `fault` (R45). -/
inductive Fault where
  /-- Raised by `step()` and by every meaning through `raiseFault`; the core stops and commits nothing (R146). `pc` is the PC of
  the faulting step, `word` the fetched word or `none` when the fetch itself faulted, `addr` the address the fault concerns. Safe:
  each cause is one the spec names; see the constructors of `FaultCause`. -/
  | raised (cause : FaultCause) (pc : Word) (word : Option Word) (addr : Nat)
  deriving DecidableEq, Repr

/-- Why the model gives no next state though nothing faulted. -/
inductive Refusal where
  /-- Given by `exec` for an instruction without a meaning; this model has none. Safe. -/
  | notModelled (mnemonic : String)
  /-- Given by `step` while `running = 0`: the spec's result `Stopped`, "no core step" (R141, D10; log 5). Safe. -/
  | stopped
  deriving DecidableEq, Repr

/-- Memory: the listed bytes by rising address; an unlisted address reads as `unlistedByte` (R55, R70). -/
abbrev Memory := List Host.Cell

/-- The framebuffer: 32 rows of 64 one-bit cells, row `y` first, then column `x` (R41). -/
abbrev Framebuffer := Vector (Vector Bool 64) 32

/-- Every piece of state the spec gives the core (10_state.md), and one field of the model's own. -/
structure State where
  /-- `V0`..`VF` (R30) -/
  v : Vector Byte 16
  /-- `I` (R36) -/
  i : Word
  /-- `PC` (R33) -/
  pc : Word
  /-- `SP` (R37) -/
  sp : Byte
  /-- `DT` (R39) -/
  dt : Byte
  /-- `ST` (R39) -/
  st : Byte
  /-- `KEYS`, bit `k` for key `k` (R40) -/
  keys : BitVec 16
  /-- `FB` (R41) -/
  fb : Framebuffer
  /-- `draw` (R42) -/
  draw : Bool
  /-- `running` (R43) -/
  running : Bool
  /-- `cycles` (R44) -/
  cycles : Nat
  /-- `fault` (R45) -/
  fault : Option Fault
  /-- `tone` (R46) -/
  tone : Bool
  /-- Memory (R70) -/
  mem : Memory
  /-- The model's own: how many bytes CXNN has drawn from `Config.rnd` (R9; log 3) -/
  rndIndex : Nat
  deriving DecidableEq, Repr

/-- The machine after construction, its power-on reset (R55, R350). -/
def State.reset : State :=
  { v := Vector.replicate 16 0
    i := 0
    pc := BitVec.ofNat 16 progOffset
    sp := 0
    dt := 0
    st := 0
    keys := 0
    fb := Vector.replicate 32 (Vector.replicate 64 false)
    draw := false
    running := true
    cycles := 0
    fault := none
    tone := false
    mem := []
    rndIndex := 0 }

/-- The outcome of a step or of a meaning. -/
abbrev Result := Host.Outcome State Fault Refusal

end Sys2Proof.Machine
end

