-- ==== Sys2Proof/Machine/Ops.lean ====
section
/-! DEFINITION. The shared operations: Memory, registers, framebuffer cells, the fetch, raising and taking a fault, the commit, the stack, and the index increment. -/

namespace Sys2Proof.Machine

/-! ## Memory (spec/20_memory.md) -/

/-- The byte at `a` (R75, R82). -/
def Memory.read : Memory → Nat → Byte
  | [], a => unlistedByte a
  | (k, b) :: m, a => if k = a then b else Memory.read m a

/-- Write one byte, keeping the canonical form: a byte equal to what an unlisted address reads as is not listed. -/
def Memory.write : Memory → Nat → Byte → Memory
  | [], a, b => if b = unlistedByte a then [] else [(a, b)]
  | (k, c) :: m, a, b =>
    if k < a then (k, c) :: Memory.write m a b
    else if k = a then (if b = unlistedByte a then m else (a, b) :: m)
    else if b = unlistedByte a then (k, c) :: m
    else (a, b) :: (k, c) :: m

/-- The canonical form from address `lo` on: addresses rise strictly and lie in Memory, and no entry is what an unlisted
address reads as. -/
def Memory.wfFrom : Nat → Memory → Bool
  | _, [] => true
  | lo, (k, b) :: m => decide (lo ≤ k) && decide (k < memSize) && (b != unlistedByte k) && Memory.wfFrom (k + 1) m

/-- The canonical form of Memory. -/
def Memory.wf (m : Memory) : Bool := Memory.wfFrom 0 m

/-- The `n` bytes from `a` on, the lowest address first (R13: `MemRead`). -/
def Memory.readBytes (m : Memory) (a : Nat) : Nat → List Byte
  | 0 => []
  | n + 1 => m.read a :: Memory.readBytes m (a + 1) n

/-- Write a string of bytes from `a` on, the first at the lowest address (R13: `MemWrite`). -/
def Memory.writeBytes (m : Memory) (a : Nat) : List Byte → Memory
  | [] => m
  | b :: bs => Memory.writeBytes (m.write a b) (a + 1) bs

/-- `MemRead(a, 2)`, big-endian (R74, R75). -/
def Memory.readWord (m : Memory) (a : Nat) : Word := wordOfBytes (m.read a) (m.read (a + 1))

/-- `MemWrite(a, 2, r)`, big-endian (R74, R75). -/
def Memory.writeWord (m : Memory) (a : Nat) (r : Word) : Memory := m.writeBytes a [hiByte r, loByte r]

/-- The lowest address of `a .. a+n-1` that is out of bounds (R76). -/
def firstOutOfBounds (a n : Nat) : Option Nat := (List.range' a n).find? fun k => decide (memSize ≤ k)

/-- The lowest address of `a .. a+n-1` that lies in the glyph table (R78). -/
def firstGlyphAddr (a n : Nat) : Option Nat := (List.range' a n).find? isGlyphAddr

/-! ## General registers (spec/10_state.md R30) -/

/-- `V[r]`. -/
def State.reg (s : State) (r : Reg) : Byte := s.v[r]

/-- `V[r] <- b`. -/
def State.setReg (s : State) (r : Reg) (b : Byte) : State := { s with v := s.v.set r b }

/-- The sixteen registers in order. -/
def allRegs : List Reg := [0, 1, 2, 3, 4, 5, 6, 7, 8, 9, 10, 11, 12, 13, 14, 15]

/-- The registers `V0..VX` in order (R248, R249). -/
def regsUpTo (x : Reg) : List Reg := allRegs.filter fun r => decide (r ≤ x)

/-! ## Framebuffer cells (spec/10_state.md R41) -/

/-- A cell of the framebuffer: column, then row. -/
abbrev Cell := Fin 64 × Fin 32

/-- `FB[x, y]`. -/
def Framebuffer.lit (fb : Framebuffer) (c : Cell) : Bool := (fb[c.2])[c.1]

/-- `FB[x, y] <- FB[x, y] ^ 1`. -/
def Framebuffer.toggle (fb : Framebuffer) (c : Cell) : Framebuffer :=
  fb.set c.2 ((fb[c.2]).set c.1 (!fb.lit c))

/-- A framebuffer with every cell 0. -/
def Framebuffer.blank : Framebuffer := Vector.replicate 32 (Vector.replicate 64 false)

/-! ## Fetch (spec/40_step.md R140, R142) -/

/-- The 2-byte big-endian word at PC, or `none` where PC or PC+1 is out of bounds (R77, R142). -/
def State.fetchWord (s : State) : Option Word :=
  if s.pc.toNat + 1 < memSize then some (s.mem.readWord s.pc.toNat) else none

/-- The address a faulting fetch reports: PC where it is out of bounds, PC+1 otherwise (R77, R140). -/
def State.fetchFaultAddr (s : State) : Nat := if memSize ≤ s.pc.toNat then s.pc.toNat else s.pc.toNat + 1

/-! ## Raising and taking a fault (spec/40_step.md R140, R146) -/

/-- `fail(class, kind, word, addr)` (R140): the step ends in this fault. The record's word is the word the step fetched, that is
the word at PC in the state before the step (R142, R144; log 4). -/
def raiseFault (s : State) (cause : FaultCause) (addr : Nat) : Result :=
  .fault (.raised cause s.pc s.fetchWord addr)

/-- TAKING A FAULT: what a faulting step does to the state, and all it does (R146, R316): it writes the record and clears
`running`. There is no handler, vector or mode change. -/
def State.takeFault (s : State) (f : Fault) : State := { s with fault := some f, running := false }

/-- LEAVING A FAULT: the host's `reset()` (spec/70_reset_and_hazards.md R354), the only way out of the Halted and Faulted states
(R318). Memory, FB, `draw`, KEYS, `cycles` and `tone` stay. -/
def State.hostReset (s : State) : State :=
  { s with
    v := Vector.replicate 16 0
    i := 0
    pc := BitVec.ofNat 16 progOffset
    sp := 0
    dt := 0
    st := 0
    running := true
    fault := none }

/-! ## What execute gives, and the commit (spec/40_step.md R140, R144, R145, R147) -/

/-- What an instruction's rule gives (R144): a fault, or its writes together with `next_pc`. The writes are held as the state that
has them all applied, in the rule's order, with PC and `cycles` not yet changed. -/
inductive Effect where
  /-- `raise F(info)` (R13). -/
  | raises (cause : FaultCause) (addr : Nat)
  /-- The writes, and `next_pc` as a natural number without wrap (R35, R147). -/
  | writes (t : State) (nextPc : Nat)

/-- The end of `step()` (R140): a `next_pc` past the end of Memory faults (R147), otherwise the writes are committed, PC takes
`next_pc` and `cycles` counts the step (R145). `s` is the state before the step. -/
def finish (s : State) : Effect → Result
  | .raises cause addr => raiseFault s cause addr
  | .writes t nextPc =>
    if nextPc < memSize then .next { t with pc := BitVec.ofNat 16 nextPc, cycles := t.cycles + 1 }
    else raiseFault s (.memory .pcOutOfRange) nextPc

/-- The default `next_pc` (R34, R144). -/
def State.pcPlus2 (s : State) : Nat := s.pc.toNat + 2

/-- The writes `t` with the default `next_pc`. -/
def fallThrough (s t : State) : Effect := .writes t s.pcPlus2

/-- Check that `a .. a+n-1` is in bounds, then go on (R76). -/
def checkBounds (a n : Nat) (k : Effect) : Effect :=
  match firstOutOfBounds a n with
  | some bad => .raises (.memory .outOfBounds) bad
  | none => k

/-- Check that `a .. a+n-1` misses the glyph table, then go on (R78). -/
def checkGlyph (a n : Nat) (k : Effect) : Effect :=
  match firstGlyphAddr a n with
  | some bad => .raises (.memory .glyphWrite) bad
  | none => k

/-! ## The call stack (spec/10_state.md R37, R38; spec/41_control_transfer.md R160) -/

/-- The address of the next free stack slot, `STACK_BASE + SP`. -/
def State.stackTop (s : State) : Nat := stackBase + s.sp.toNat

/-- `Push(r)`, then `next_pc <- target`. -/
def pushAndGo (s : State) (r : Word) (target : Nat) : Effect :=
  if s.sp.toNat = 2 * stackDepth then .raises (.memory .stackOverflow) s.stackTop
  else .writes { s with mem := s.mem.writeWord s.stackTop r, sp := s.sp + 2 } target

/-- `Pop()`, then `next_pc` is the popped value. -/
def popAndGo (s : State) : Effect :=
  if s.sp.toNat = 0 then .raises (.memory .stackUnderflow) stackBase
  else .writes { s with sp := s.sp - 2 } (s.mem.readWord (s.stackTop - 2)).toNat

/-- The return address a call pushes, `PC + 2` (R166; log 8 for a PC that no run reaches). -/
def State.returnAddress (s : State) : Word := BitVec.ofNat 16 s.pcPlus2

/-! ## The index register (spec/44_index_memory.md R241) -/

/-- `IncI(n)` as the last check of a rule: the writes `t` with `I <- I + n`, or IndexOverflow. `s` is the state before the step. -/
def incIndex (s t : State) (n : Nat) : Effect :=
  if 0xFFFF < s.i.toNat + n then .raises (.memory .indexOverflow) s.i.toNat
  else fallThrough s { t with i := BitVec.ofNat 16 (s.i.toNat + n) }

end Sys2Proof.Machine
end

