-- ==== Sys2Proof/Machine/Operands.lean ====
section
/-! DEFINITION. The operand forms (spec/30_encoding.md R102; spec/44_index_memory.md R240): a register, an 8-bit immediate, a 12-bit absolute address, a row count, a key named by a register, a glyph named by a register, and memory through I. Every field is zero-extended. -/

namespace Sys2Proof.Machine

/-- `zext(NNN)`, an absolute byte address (R102). -/
def addrOperand (nnn : Addr12) : Nat := nnn.toNat

/-- The row count N of DXYN, 0 to 15 (R102). -/
def countOperand (n : Nibble) : Nat := n.toNat

/-- The effective address `zext(I) + k` of a data access, without wrap (R240). -/
def State.ea (s : State) (k : Nat) : Nat := s.i.toNat + k

/-- The `n` bytes a data read takes through I, from `I` on (R240). -/
def State.loadThroughI (s : State) (n : Nat) : List Byte := s.mem.readBytes (s.ea 0) n

/-- A string of bytes stored through I, from `I` on (R240). -/
def State.storeThroughI (s : State) (bs : List Byte) : State := { s with mem := s.mem.writeBytes (s.ea 0) bs }

/-- The key a register names, none where it is past 15 (spec/42_conditional_skip.md R185, R186). -/
def State.keyOperand (s : State) (x : Reg) : Option Key :=
  if h : (s.reg x).toNat < 16 then some ⟨(s.reg x).toNat, h⟩ else none

/-- Is key `k` held in the input latch (R40)? -/
def State.keyHeld (s : State) (k : Key) : Bool := s.keys.getLsbD k

/-- The sixteen keys in order. -/
def allKeys : List Key := [0, 1, 2, 3, 4, 5, 6, 7, 8, 9, 10, 11, 12, 13, 14, 15]

/-- The lowest key held, none while `KEYS = 0` (spec/46_timer_input.md R291, R292). -/
def State.lowestKey (s : State) : Option Key := allKeys.find? s.keyHeld

/-- The byte that holds a key's index (R291). -/
def keyByte (k : Key) : Byte := BitVec.ofNat 8 k

/-- The address of the glyph a register names, none where the digit is past 15 (spec/44_index_memory.md R245, R246). -/
def State.glyphOperand (s : State) (x : Reg) : Option Nat :=
  if (s.reg x).toNat < glyphCount then some (glyphBase + glyphBytes * (s.reg x).toNat) else none

/-- The random byte this step samples (spec/00_scope.md R9): a free value. -/
def State.rnd (s : State) : Byte := Config.rnd s.rndIndex

/-- Sampling moves the model on to the next free value. -/
def State.drawRnd (s : State) : State := { s with rndIndex := s.rndIndex + 1 }

end Sys2Proof.Machine
end

