-- ==== Sys2Proof/Machine/Flags.lean ====
section
/-! DEFINITION. The flag computations (spec/10_state.md R49; spec/43_alu.md R200, R207 to R211; spec/45_display.md R272). VF is the only flag. -/

namespace Sys2Proof.Machine

/-- A flag as the register VF holds it: 1 or 0. -/
def flagByte (b : Bool) : Byte := if b then 1 else 0

/-- Carry out of an addition: `a + b > 255` (R207). -/
def carryOf (a b : Byte) : Bool := decide (255 < a.toNat + b.toNat)

/-- NOT borrow of `a - b`: `a ≥ b` (R208, R210). -/
def noBorrowOf (a b : Byte) : Bool := decide (b.toNat ≤ a.toNat)

/-- The bit a right shift by one shifts out, `a[0]` (R209). -/
def shiftedOutRight (a : Byte) : Bool := a.getLsbD 0

/-- The bit a left shift by one shifts out, `a[7]` (R211). -/
def shiftedOutLeft (a : Byte) : Bool := a.getLsbD 7

/-- The two writes of a flag-setting ALU instruction in R200's order: the result to `V[X]`, then the flag to VF, which is final
where `X = F`. -/
def State.setRegAndFlag (s : State) (x : Reg) (result : Byte) (flag : Bool) : State :=
  (s.setReg x result).setReg VF (flagByte flag)

end Sys2Proof.Machine
end

