-- ==== Sys2Proof/Machine/Alu.lean ====
section
/-! DEFINITION. The ALU: LD, ADD, the register-register operations, RND (spec/43_alu.md). Every one falls through to `PC + 2`. -/

namespace Sys2Proof.Machine

/-- An instruction whose one write is `V[X] <- b`. -/
def aluWrite (s : State) (x : Reg) (b : Byte) : Result := finish s (fallThrough s (s.setReg x b))

/-- An instruction that writes `V[X]` and then VF as a flag (R200). -/
def aluWriteFlag (s : State) (x : Reg) (b : Byte) (flag : Bool) : Result :=
  finish s (fallThrough s (s.setRegAndFlag x b flag))

/-- 6XNN `LD VX, 0xNN` (R201). -/
def execLdImm (x : Reg) (nn : Byte) (s : State) : Result := aluWrite s x nn

/-- 7XNN `ADD VX, 0xNN` (R202): wraps, no flag. -/
def execAddImm (x : Reg) (nn : Byte) (s : State) : Result := aluWrite s x (s.reg x + nn)

/-- 8XY0 `LD VX, VY` (R203). -/
def execMovReg (x y : Reg) (s : State) : Result := aluWrite s x (s.reg y)

/-- 8XY1 `OR VX, VY` (R204): VF unchanged. -/
def execOrReg (x y : Reg) (s : State) : Result := aluWrite s x (s.reg x ||| s.reg y)

/-- 8XY2 `AND VX, VY` (R205): VF unchanged. -/
def execAndReg (x y : Reg) (s : State) : Result := aluWrite s x (s.reg x &&& s.reg y)

/-- 8XY3 `XOR VX, VY` (R206): VF unchanged. -/
def execXorReg (x y : Reg) (s : State) : Result := aluWrite s x (s.reg x ^^^ s.reg y)

/-- 8XY4 `ADD VX, VY` (R207): VF is the carry. -/
def execAddReg (x y : Reg) (s : State) : Result :=
  aluWriteFlag s x (s.reg x + s.reg y) (carryOf (s.reg x) (s.reg y))

/-- 8XY5 `SUB VX, VY` (R208): VF is NOT borrow of `VX - VY`. -/
def execSubReg (x y : Reg) (s : State) : Result :=
  aluWriteFlag s x (s.reg x - s.reg y) (noBorrowOf (s.reg x) (s.reg y))

/-- 8XY6 `SHR VX, VY` (R209): shifts VX in place, Y is ignored, VF is the old bit 0. -/
def execShrReg (x _y : Reg) (s : State) : Result :=
  aluWriteFlag s x (s.reg x >>> 1) (shiftedOutRight (s.reg x))

/-- 8XY7 `SUBN VX, VY` (R210): VF is NOT borrow of `VY - VX`. -/
def execSubnReg (x y : Reg) (s : State) : Result :=
  aluWriteFlag s x (s.reg y - s.reg x) (noBorrowOf (s.reg y) (s.reg x))

/-- 8XYE `SHL VX, VY` (R211): shifts VX in place, Y is ignored, VF is the old bit 7. -/
def execShlReg (x _y : Reg) (s : State) : Result :=
  aluWriteFlag s x (s.reg x <<< 1) (shiftedOutLeft (s.reg x))

/-- CXNN `RND VX, 0xNN` (R222): the step's random byte, masked. -/
def execRnd (x : Reg) (nn : Byte) (s : State) : Result :=
  finish s (fallThrough s (s.drawRnd.setReg x (s.rnd &&& nn)))

end Sys2Proof.Machine
end

