-- ==== Sys2Proof/Machine/Control.lean ====
section
/-! DEFINITION. Control transfer: RET, SYS, JP, CALL, JP V0, HALT (spec/41_control_transfer.md). -/

namespace Sys2Proof.Machine

/-- 00EE `RET` (R161): pop the return address into PC. -/
def execRet (s : State) : Result := finish s (popAndGo s)

/-- The native call under either mode (R162). -/
def nativeCall (mode : NativeCallMode) (nnn : Addr12) (s : State) : Effect :=
  match mode with
  | .nop => fallThrough s s
  | .call => pushAndGo s s.returnAddress (addrOperand nnn)

/-- 0NNN `SYS 0xNNN` (R162), in this hardware's `NATIVE_CALL_MODE`. -/
def execSys (nnn : Addr12) (s : State) : Result := finish s (nativeCall nativeCallMode nnn s)

/-- 1NNN `JP 0xNNN` (R164). -/
def execJp (nnn : Addr12) (s : State) : Result := finish s (.writes s (addrOperand nnn))

/-- 2NNN `CALL 0xNNN` (R166). -/
def execCall (nnn : Addr12) (s : State) : Result := finish s (pushAndGo s s.returnAddress (addrOperand nnn))

/-- BNNN `JP V0, 0xNNN` (R168): the sum is not wrapped. -/
def execJpV0 (nnn : Addr12) (s : State) : Result := finish s (.writes s ((s.reg 0).toNat + addrOperand nnn))

/-- FXFF `HALT` (R170): clear `running`; the step itself succeeds. -/
def execHalt (s : State) : Result := finish s (fallThrough s { s with running := false })

end Sys2Proof.Machine
end

