-- ==== Sys2Proof/Machine/Display.lean ====
section
/-! DEFINITION. Framebuffer writes: CLS, DRW (spec/45_display.md). Both fall through to `PC + 2`. -/

namespace Sys2Proof.Machine

/-- 00E0 `CLS` (R270): every cell 0, `draw` set. -/
def execCls (s : State) : Result := finish s (fallThrough s { s with fb := Framebuffer.blank, draw := true })

/-- The cell a sprite bit at unbounded coordinates lands on, none where it is clipped (R273). -/
def spriteTarget (edge : DrawEdge) (x y : Nat) : Option Cell :=
  match edge with
  | .clip => if h : x < 64 ∧ y < 32 then some (⟨x, h.1⟩, ⟨y, h.2⟩) else none
  | .wrap => some (⟨x % 64, Nat.mod_lt _ (by decide)⟩, ⟨y % 32, Nat.mod_lt _ (by decide)⟩)

/-- The cells one sprite row's set bits land on, the most significant bit first (R271). -/
def rowTargets (edge : DrawEdge) (x0 y : Nat) (row : Byte) : List Cell :=
  [0, 1, 2, 3, 4, 5, 6, 7].filterMap fun b => if row.getLsbD (7 - b) then spriteTarget edge (x0 + b) y else none

/-- The cells a sprite's set bits land on, row by row from `(x0, y0)` down (R271). -/
def spriteTargets (edge : DrawEdge) (x0 y0 : Nat) : List Byte → List Cell
  | [] => []
  | row :: rows => rowTargets edge x0 y0 row ++ spriteTargets edge x0 (y0 + 1) rows

/-- One set sprite bit drawn: a lit cell collides, and the cell is toggled (R271, R272). -/
def plot (p : Framebuffer × Bool) (c : Cell) : Framebuffer × Bool := (p.1.toggle c, p.2 || p.1.lit c)

/-- The drawing loop of R271: the new framebuffer and the collision flag. -/
def drawCells (fb : Framebuffer) (cells : List Cell) : Framebuffer × Bool := cells.foldl plot (fb, false)

/-- The writes of DXYN once its rows are read (R271): FB, then VF as the collision flag, then `draw`. The coordinates are read
before any write (R274). -/
def State.drawSprite (s : State) (edge : DrawEdge) (x y : Reg) (rows : List Byte) : State :=
  let p := drawCells s.fb (spriteTargets edge (s.reg x).toNat (s.reg y).toNat rows)
  ({ s with fb := p.1, draw := true }).setReg VF (flagByte p.2)

/-- DXYN under either `DRAW_EDGE` (R271): every row is bounds-checked, on the screen or off it. -/
def drawWith (edge : DrawEdge) (x y : Reg) (n : Nibble) (s : State) : Result :=
  finish s (checkBounds (s.ea 0) (countOperand n)
    (fallThrough s (s.drawSprite edge x y (s.loadThroughI (countOperand n)))))

/-- DXYN `DRW VX, VY, 0xN` (R271), with this hardware's `DRAW_EDGE`. -/
def execDrw (x y : Reg) (n : Nibble) (s : State) : Result := drawWith drawEdge x y n s

end Sys2Proof.Machine
end

