-- ==== Sys2Proof/Machine/IndexMemory.lean ====
section
/-! DEFINITION. The index register and data memory: LD I, ADD I, LD F, LD B, LD [I], LD VX [I] (spec/44_index_memory.md). Every one falls through to `PC + 2`. -/

namespace Sys2Proof.Machine

/-- ANNN `LD I, 0xNNN` (R242). -/
def execLdI (nnn : Addr12) (s : State) : Result :=
  finish s (fallThrough s { s with i := BitVec.ofNat 16 (addrOperand nnn) })

/-- FX1E `ADD I, VX` (R243): no flag; IndexOverflow past 0xFFFF. -/
def execAddIX (x : Reg) (s : State) : Result := finish s (incIndex s s (s.reg x).toNat)

/-- What FX29 does (R245, R246): I points at the glyph of the digit in VX. -/
def pointAtGlyph (x : Reg) (s : State) : Effect :=
  match s.glyphOperand x with
  | some a => fallThrough s { s with i := BitVec.ofNat 16 a }
  | none => .raises (.operand .glyphIndex) s.pc.toNat

/-- FX29 `LD F, VX` (R245). -/
def execLdFX (x : Reg) (s : State) : Result := finish s (pointAtGlyph x s)

/-- The decimal digits of a byte: hundreds, tens, ones (R247). -/
def bcdDigits (b : Byte) : List Byte :=
  [BitVec.ofNat 8 (b.toNat / 100), BitVec.ofNat 8 (b.toNat % 100 / 10), BitVec.ofNat 8 (b.toNat % 10)]

/-- FX33 `LD B, VX` (R247): I stays. -/
def execLdBX (x : Reg) (s : State) : Result :=
  finish s (checkBounds (s.ea 0) 3 (checkGlyph (s.ea 0) 3 (fallThrough s (s.storeThroughI (bcdDigits (s.reg x))))))

/-- The bytes FX55 stores: V0..VX in order (R248). -/
def State.dumpBytes (s : State) (x : Reg) : List Byte := (regsUpTo x).map s.reg

/-- FX55 `LD [I], VX` (R248): store V0..VX, then advance I by X+1. -/
def execLdMemX (x : Reg) (s : State) : Result :=
  finish s (checkBounds (s.ea 0) (x.val + 1) (checkGlyph (s.ea 0) (x.val + 1)
    (incIndex s (s.storeThroughI (s.dumpBytes x)) (x.val + 1))))

/-- The loads of FX65 (R249): `V[r] <- MemRead(I + r, 1)` for each `r` of `V0..VX`. -/
def State.loadRegs (s : State) (x : Reg) : State :=
  { s with v := (regsUpTo x).foldl (fun v (r : Reg) => v.set r (s.mem.read (s.ea r.val))) s.v }

/-- FX65 `LD VX, [I]` (R249): load V0..VX, then advance I by X+1. -/
def execLdXMem (x : Reg) (s : State) : Result :=
  finish s (checkBounds (s.ea 0) (x.val + 1) (incIndex s (s.loadRegs x) (x.val + 1)))

end Sys2Proof.Machine
end

