-- ==== Sys2Proof/Machine/Skip.lean ====
section
/-! DEFINITION. Conditional skips: SE, SNE, SKP, SKNP (spec/42_conditional_skip.md). -/

namespace Sys2Proof.Machine

/-- The skip mechanism (R180): `PC + 4` when the condition holds, `PC + 2` otherwise; no write. -/
def skipIf (s : State) (c : Bool) : Effect := .writes s (if c then s.pc.toNat + 4 else s.pcPlus2)

/-- A skip on the state of the key that `V[X]` names, faulting on a key index past 15 (R185 to R187). -/
def skipOnKey (s : State) (x : Reg) (c : Bool → Bool) : Effect :=
  match s.keyOperand x with
  | some k => skipIf s (c (s.keyHeld k))
  | none => .raises (.operand .keyIndex) s.pc.toNat

/-- 3XNN `SE VX, 0xNN` (R181). -/
def execSeImm (x : Reg) (nn : Byte) (s : State) : Result := finish s (skipIf s (s.reg x == nn))

/-- 4XNN `SNE VX, 0xNN` (R182). -/
def execSneImm (x : Reg) (nn : Byte) (s : State) : Result := finish s (skipIf s (s.reg x != nn))

/-- 5XY0 `SE VX, VY` (R183). -/
def execSeReg (x y : Reg) (s : State) : Result := finish s (skipIf s (s.reg x == s.reg y))

/-- 9XY0 `SNE VX, VY` (R184). -/
def execSneReg (x y : Reg) (s : State) : Result := finish s (skipIf s (s.reg x != s.reg y))

/-- EX9E `SKP VX` (R185). -/
def execSkp (x : Reg) (s : State) : Result := finish s (skipOnKey s x fun held => held)

/-- EXA1 `SKNP VX` (R187). -/
def execSknp (x : Reg) (s : State) : Result := finish s (skipOnKey s x fun held => !held)

end Sys2Proof.Machine
end

