-- ==== Sys2Proof/Machine/TimerInput.lean ====
section
/-! DEFINITION. Timer and input latch access: LD VX DT, LD VX K, LD DT VX, LD ST VX (spec/46_timer_input.md). -/

namespace Sys2Proof.Machine

/-- FX07 `LD VX, DT` (R290). -/
def execLdXDt (x : Reg) (s : State) : Result := finish s (fallThrough s (s.setReg x s.dt))

/-- What FX0A does (R291, R292): while no key is held PC stays and nothing is written (R149); otherwise VX takes the lowest key
held. -/
def waitForKey (x : Reg) (s : State) : Effect :=
  match s.lowestKey with
  | none => .writes s s.pc.toNat
  | some k => fallThrough s (s.setReg x (keyByte k))

/-- FX0A `LD VX, K` (R291). -/
def execLdXK (x : Reg) (s : State) : Result := finish s (waitForKey x s)

/-- FX15 `LD DT, VX` (R293). -/
def execLdDtX (x : Reg) (s : State) : Result := finish s (fallThrough s { s with dt := s.reg x })

/-- FX18 `LD ST, VX` (R294): `tone` is not touched. -/
def execLdStX (x : Reg) (s : State) : Result := finish s (fallThrough s { s with st := s.reg x })

end Sys2Proof.Machine
end

