-- ==== Sys2Proof/Machine/Step.lean ====
section
/-! DEFINITION. step: the core's one transition (spec/40_step.md R140), and the host's way to place an instruction where it fetches. -/

namespace Sys2Proof.Machine

/-- `step()` (R140): nothing while stopped (R141), else fetch (R142), decode (R143), execute and commit (R144, R145). -/
def step (s : State) : Host.Outcome State Fault Refusal :=
  if s.running then
    match s.fetchWord with
    | none => raiseFault s (.memory .outOfBounds) s.fetchFaultAddr
    | some w =>
      match decode w with
      | none => raiseFault s .illegalInstruction s.pc.toNat
      | some i => exec i s
  else .refused .stopped

/-- `s` with the instruction word whose bits are `w` stored big-endian at PC and the core running, so that the next step fetches
and runs it; bits from `nbits` on are 0. Where no instruction fits at PC the state stays (the fetch faults there). -/
def State.withFetchWord (s : State) (nbits w : Nat) : State :=
  if s.pc.toNat + 1 < memSize then
    { s with mem := s.mem.writeWord s.pc.toNat (BitVec.ofNat 16 (w % 2 ^ nbits)), running := true }
  else s

end Sys2Proof.Machine
end

