-- ==== Sys2Proof/Machine/HostOps.lean ====
section
/-! DEFINITION. What the host does to the core between steps, and what it reads (spec/00_scope.md R10; spec/60_exceptions.md R330 to R336; spec/70_reset_and_hazards.md R352 to R354). `reset()` is `State.hostReset` in Ops.lean. -/

namespace Sys2Proof.Machine

/-- `key_down(k)` (R330). -/
def State.keyDown (s : State) (k : Key) : State := { s with keys := s.keys ||| BitVec.twoPow 16 k }

/-- `key_up(k)` (R330). -/
def State.keyUp (s : State) (k : Key) : State := { s with keys := s.keys &&& ~~~BitVec.twoPow 16 k }

/-- A timer one tick on, with a floor of 0 (R333). -/
def tick (t : Byte) : Byte := if t = 0 then 0 else t - 1

/-- `dec_timers()` (R333): `tone` tells whether the sound timer stood at 1. -/
def State.decTimers (s : State) : State := { s with tone := s.st == 1, dt := tick s.dt, st := tick s.st }

/-- `clear_draw()` (R335). -/
def State.clearDraw (s : State) : State := { s with draw := false }

/-- `load(bytes)` (R352): none is LoadFault, an image longer than the program window. -/
def State.load (s : State) (image : List Byte) : Option State :=
  if progWindow < image.length then none else some { s with mem := s.mem.writeBytes progOffset image }

/-! ## Fault codes (R310, R312, R314, D35) -/

/-- The code of LoadFault (R310). -/
def loadFaultCode : Nat := 4

/-- The class code of a step fault (R310). -/
def FaultCause.classCode : FaultCause → Nat
  | .memory _ => 1
  | .illegalInstruction => 2
  | .operand _ => 3

/-- The code of a step fault's kind, `None` for IllegalInstruction (R311, R312, R314). -/
def FaultCause.kindCode : FaultCause → Option Nat
  | .memory .outOfBounds => some 1
  | .memory .pcOutOfRange => some 2
  | .memory .stackOverflow => some 3
  | .memory .stackUnderflow => some 4
  | .memory .glyphWrite => some 5
  | .memory .indexOverflow => some 6
  | .illegalInstruction => none
  | .operand .keyIndex => some 1
  | .operand .glyphIndex => some 2

/-! ## What the host reads (R10, R41) -/

/-- A cell as the host's byte array holds it. -/
def cellByte (b : Bool) : Byte := if b then 1 else 0

/-- The framebuffer as the host sees it: 2048 bytes, byte `y*64 + x` for cell `(x, y)` (R41, D22). -/
def State.hostFramebuffer (s : State) : List Byte := (s.fb.toList.map fun row => row.toList.map cellByte).flatten

/-- The observable outputs (R10). Memory is not among them (spec/20_memory.md R87). -/
structure Outputs where
  framebuffer : List Byte
  draw : Bool
  running : Bool
  cycles : Nat
  tone : Bool
  fault : Option Fault
  deriving DecidableEq, Repr

/-- What the host reads between steps. -/
def State.outputs (s : State) : Outputs :=
  { framebuffer := s.hostFramebuffer, draw := s.draw, running := s.running, cycles := s.cycles, tone := s.tone, fault := s.fault }

/-! ## Run states (spec/10_state.md R47) -/

/-- The four run states; none is a register of its own. -/
inductive RunState where
  | running
  | waitingForKey
  | halted
  | faulted
  deriving DecidableEq, Repr

/-- Does the word at PC decode to FX0A? -/
def State.atKeyWait (s : State) : Bool :=
  match s.fetchWord.bind decode with
  | some (.ldXK _) => true
  | _ => false

/-- The run state as a function of the state (R47). -/
def State.runState (s : State) : RunState :=
  if s.running then (if s.atKeyWait && s.keys == 0 then .waitingForKey else .running)
  else if s.fault.isNone then .halted else .faulted

end Sys2Proof.Machine
end

