-- ==== Sys2Proof/Machine/Transact.lean ====
section
/-! DEFINITION. The core's interface as transactions (spec/00_scope.md R10), each atomic, and runs as lists of them in any interleaving (R8). -/

namespace Sys2Proof.Machine

/-- What the host may ask of the core (R10). A key past 15 is no move of the host's (spec/60_exceptions.md R331). -/
inductive Transaction where
  | step
  | load (image : List Byte)
  | reset
  | keyDown (k : Key)
  | keyUp (k : Key)
  | decTimers
  | clearDraw
  deriving DecidableEq, Repr

/-- What a transaction answers (R10). -/
inductive Response where
  | ok
  | fault (record : Fault)
  | stopped
  | loadFault
  deriving DecidableEq, Repr

/-- `step()` as the host sees it (spec/40_step.md R140, R141, R146): the state it leaves, and `Ok`, `Fault(record)` or `Stopped`.
`step` refuses only while `running = 0`. -/
def stepTransaction (s : State) : State × Response :=
  match step s with
  | .next t => (t, .ok)
  | .fault f => (s.takeFault f, .fault f)
  | .refused _ => (s, .stopped)

/-- One transaction: the state it leaves and its answer. -/
def transact (s : State) : Transaction → State × Response
  | .step => stepTransaction s
  | .load image =>
    match s.load image with
    | some t => (t, .ok)
    | none => (s, .loadFault)
  | .reset => (s.hostReset, .ok)
  | .keyDown k => (s.keyDown k, .ok)
  | .keyUp k => (s.keyUp k, .ok)
  | .decTimers => (s.decTimers, .ok)
  | .clearDraw => (s.clearDraw, .ok)

/-- The state a list of transactions leaves, in order. -/
def runTransactions : State → List Transaction → State
  | s, [] => s
  | s, t :: ts => runTransactions (transact s t).1 ts

end Sys2Proof.Machine
end

