-- ==== Sys2Proof/Safety.lean ====
section
/-! DEFINITION. What a safe run is, in the terms the statements use: the invariant of the machine, and the vocabulary of frames. -/

namespace Sys2Proof.Machine

/-! ## Reading an outcome -/

/-- The next state of an outcome, if it has one. -/
def nextState? : Result → Option State
  | .next t => some t
  | _ => none

/-- The fault of an outcome, if it is one. -/
def faultOf? : Result → Option Fault
  | .fault f => some f
  | _ => none

/-- The cause of a fault (R311). -/
def Fault.cause : Fault → FaultCause
  | .raised c _ _ _ => c

/-! ## The invariant -/

/-- The glyph table holds the glyph data (spec/10_state.md R56; spec/70_reset_and_hazards.md R351). -/
def State.GlyphsIntact (s : State) : Prop := ∀ a, isGlyphAddr a = true → s.mem.read a = unlistedByte a

/-- What holds of the machine after construction and after every transaction. -/
structure State.Inv (s : State) : Prop where
  /-- Memory is in its canonical form. -/
  memWf : s.mem.wf = true
  /-- The glyph table is immutable (R351). -/
  glyphs : s.GlyphsIntact
  /-- PC is a valid offset into Memory (R35). -/
  pcInRange : s.pc.toNat < memSize
  /-- SP is even (R37). -/
  spEven : s.sp.toNat % 2 = 0
  /-- SP is in `0 .. 2*STACK_DEPTH` (R37). -/
  spBound : s.sp.toNat ≤ 2 * stackDepth
  /-- A fault record is held only by a stopped core (R43, R45). -/
  faultStops : s.fault.isSome = true → s.running = false

/-! ## Frames: what an instruction leaves unchanged (spec/00_scope.md R14, D40) -/

/-- The pieces of state an instruction may leave unchanged; PC and `cycles`, which every successful step writes, are not among
them. -/
inductive Part where
  | regs | i | sp | dt | st | keys | fb | draw | running | fault | tone | mem | rndIndex
  deriving DecidableEq, Repr

/-- A piece of state is the same in two states. Memory is compared byte by byte, the registers register by register, the
framebuffer cell by cell. -/
def Part.same : Part → State → State → Prop
  | .regs, s, t => ∀ r : Reg, t.reg r = s.reg r
  | .i, s, t => t.i = s.i
  | .sp, s, t => t.sp = s.sp
  | .dt, s, t => t.dt = s.dt
  | .st, s, t => t.st = s.st
  | .keys, s, t => t.keys = s.keys
  | .fb, s, t => ∀ c : Cell, t.fb.lit c = s.fb.lit c
  | .draw, s, t => t.draw = s.draw
  | .running, s, t => t.running = s.running
  | .fault, s, t => t.fault = s.fault
  | .tone, s, t => t.tone = s.tone
  | .mem, s, t => ∀ a : Nat, t.mem.read a = s.mem.read a
  | .rndIndex, s, t => t.rndIndex = s.rndIndex

/-- Everything but the named pieces (and PC and `cycles`) is the same in `t` as in `s`. -/
def UnchangedExcept (s t : State) (written : List Part) : Prop := ∀ p : Part, p ∉ written → p.same s t

/-- Every general register but the named ones is the same in `t` as in `s`. -/
def RegsUnchangedExcept (s t : State) (written : List Reg) : Prop := ∀ r : Reg, r ∉ written → t.reg r = s.reg r

/-- Every byte of Memory outside `a .. a+n-1` is the same in `t` as in `s`. -/
def MemUnchangedOutside (s t : State) (a n : Nat) : Prop := ∀ b : Nat, b < a ∨ a + n ≤ b → t.mem.read b = s.mem.read b

/-- The step committed: PC took `pc` and `cycles` counted it (R145). -/
def Committed (s t : State) (pc : Nat) : Prop := t.pc.toNat = pc ∧ t.cycles = s.cycles + 1

/-- The fault a faulting meaning gives at `s` (R311): the record holds PC, the word at PC, and `addr`. -/
def faultAt (s : State) (cause : FaultCause) (addr : Nat) : Result := .fault (.raised cause s.pc s.fetchWord addr)

/-- The pieces of state an instruction's rule lists as written, besides PC and `cycles` (R32, R36, R38, R39, R41 to R43). -/
def writtenParts : Instr → List Part
  | .cls => [.fb, .draw]
  | .ret => [.sp]
  | .sys _ => match nativeCallMode with | .nop => [] | .call => [.sp, .mem]
  | .jp _ => []
  | .call _ => [.sp, .mem]
  | .seImm _ _ => []
  | .sneImm _ _ => []
  | .seReg _ _ => []
  | .ldImm _ _ => [.regs]
  | .addImm _ _ => [.regs]
  | .movReg _ _ => [.regs]
  | .orReg _ _ => [.regs]
  | .andReg _ _ => [.regs]
  | .xorReg _ _ => [.regs]
  | .addReg _ _ => [.regs]
  | .subReg _ _ => [.regs]
  | .shrReg _ _ => [.regs]
  | .subnReg _ _ => [.regs]
  | .shlReg _ _ => [.regs]
  | .sneReg _ _ => []
  | .ldI _ => [.i]
  | .jpV0 _ => []
  | .rnd _ _ => [.regs, .rndIndex]
  | .drw _ _ _ => [.regs, .fb, .draw]
  | .skp _ => []
  | .sknp _ => []
  | .ldXDt _ => [.regs]
  | .ldXK _ => [.regs]
  | .ldDtX _ => [.dt]
  | .ldStX _ => [.st]
  | .addIX _ => [.i]
  | .ldFX _ => [.i]
  | .ldBX _ => [.mem]
  | .ldMemX _ => [.mem, .i]
  | .ldXMem _ => [.regs, .i]
  | .halt => [.running]

/-- The general registers an instruction writes: the "writes" column of spec/10_state.md R32. -/
def writtenRegs : Instr → List Reg
  | .ldImm x _ => [x]
  | .addImm x _ => [x]
  | .movReg x _ => [x]
  | .orReg x _ => [x]
  | .andReg x _ => [x]
  | .xorReg x _ => [x]
  | .addReg x _ => [x, VF]
  | .subReg x _ => [x, VF]
  | .shrReg x _ => [x, VF]
  | .subnReg x _ => [x, VF]
  | .shlReg x _ => [x, VF]
  | .rnd x _ => [x]
  | .drw _ _ _ => [VF]
  | .ldXDt x => [x]
  | .ldXK x => [x]
  | .ldXMem x => regsUpTo x
  | .cls | .ret | .sys _ | .jp _ | .call _ | .seImm _ _ | .sneImm _ _ | .seReg _ _ | .sneReg _ _ | .ldI _ | .jpV0 _
  | .skp _ | .sknp _ | .ldDtX _ | .ldStX _ | .addIX _ | .ldFX _ | .ldBX _ | .ldMemX _ | .halt => []

/-- Where an instruction stores, computed as its meaning does: the first address and the number of bytes (spec/20_memory.md R72);
no bytes for an instruction that stores nothing. -/
def storedRange (i : Instr) (s : State) : Nat × Nat :=
  match i with
  | .call _ => (s.stackTop, 2)
  | .sys _ => match nativeCallMode with | .nop => (0, 0) | .call => (s.stackTop, 2)
  | .ldBX _ => (s.ea 0, 3)
  | .ldMemX x => (s.ea 0, x.val + 1)
  | .cls | .ret | .jp _ | .seImm _ _ | .sneImm _ _ | .seReg _ _ | .ldImm _ _ | .addImm _ _ | .movReg _ _ | .orReg _ _
  | .andReg _ _ | .xorReg _ _ | .addReg _ _ | .subReg _ _ | .shrReg _ _ | .subnReg _ _ | .shlReg _ _ | .sneReg _ _
  | .ldI _ | .jpV0 _ | .rnd _ _ | .drw _ _ _ | .skp _ | .sknp _ | .ldXDt _ | .ldXK _ | .ldDtX _ | .ldStX _ | .addIX _
  | .ldFX _ | .ldXMem _ | .halt => (0, 0)

/-! ## Sprites, as the set of cells they cover (spec/45_display.md R271, R273) -/

/-- A sprite bit at unbounded coordinates `(x, y)` lands on cell `c` (R273): under `Clip` where the coordinates are the cell's,
under `Wrap` where they are so modulo the screen's size. -/
def LandsOn (edge : DrawEdge) (x y : Nat) (c : Cell) : Prop :=
  match edge with
  | .clip => c.1.val = x ∧ c.2.val = y
  | .wrap => c.1.val = x % 64 ∧ c.2.val = y % 32

/-- Does a set bit of the `n` sprite rows at I, drawn from `(x0, y0)`, land on cell `c`? -/
def SpriteCovers (edge : DrawEdge) (s : State) (x0 y0 n : Nat) (c : Cell) : Prop :=
  ∃ r b : Nat, r < n ∧ b < 8 ∧ (s.mem.read (s.i.toNat + r)).getLsbD (7 - b) = true ∧ LandsOn edge (x0 + b) (y0 + r) c

end Sys2Proof.Machine
end

