-- ==== Sys2Proof/Certificates/Slice0/Obligations.lean ====
section
/-! DEFINITION. The statements for the provers. Each docstring names the rules of spec/ it formalises; "D<n>" is the spec's own decision of that number in spec/92_eei_decisions.md. -/

open Sys2Proof Sys2Proof.Machine

/-! ## Encoding -/

/-- Decode and encode agree on every well-formed instruction, every operand at every value (30_encoding.md R103, R104). -/
def Obligations.DecodeOfEncodeGivesTheInstruction : Prop :=
  ∀ i : Instr, i.wellFormed = true → decode (encode i) = some i ∧ ∀ rest, decodeBytes (encodeBytes i ++ rest) = .ok (i, rest)

/-- The other direction: a word that decodes is the word of its instruction, but for HALT's ignored X (R106, D39). -/
def Obligations.EncodeOfDecodeGivesTheWord : Prop :=
  ∀ (w : Word) (i : Instr), decode w = some i →
    i.wellFormed = true ∧ (i ≠ .halt → encode i = w) ∧ (i = .halt → w &&& 0xF0FF#16 = 0xF0FF#16)

/-- R104, class by class, with the fields at R101's bit positions written as numbers. -/
def Obligations.DecoderFollowsTheClassTable : Prop :=
  ∀ (x y : Reg) (nnn : Addr12) (nn : Byte) (n : Nibble),
    decode 0x00E0#16 = some .cls ∧
    decode 0x00EE#16 = some .ret ∧
    (nnn.toNat ≠ 0x0E0 → nnn.toNat ≠ 0x0EE → decode (BitVec.ofNat 16 nnn.toNat) = some (.sys nnn)) ∧
    decode (BitVec.ofNat 16 (0x1000 + nnn.toNat)) = some (.jp nnn) ∧
    decode (BitVec.ofNat 16 (0x2000 + nnn.toNat)) = some (.call nnn) ∧
    decode (BitVec.ofNat 16 (0x3000 + x.val * 256 + nn.toNat)) = some (.seImm x nn) ∧
    decode (BitVec.ofNat 16 (0x4000 + x.val * 256 + nn.toNat)) = some (.sneImm x nn) ∧
    decode (BitVec.ofNat 16 (0x5000 + x.val * 256 + y.val * 16 + n.toNat)) =
      (if n.toNat = 0 then some (.seReg x y) else none) ∧
    decode (BitVec.ofNat 16 (0x6000 + x.val * 256 + nn.toNat)) = some (.ldImm x nn) ∧
    decode (BitVec.ofNat 16 (0x7000 + x.val * 256 + nn.toNat)) = some (.addImm x nn) ∧
    decode (BitVec.ofNat 16 (0x8000 + x.val * 256 + y.val * 16 + n.toNat)) =
      (if n.toNat = 0x0 then some (.movReg x y) else if n.toNat = 0x1 then some (.orReg x y)
       else if n.toNat = 0x2 then some (.andReg x y) else if n.toNat = 0x3 then some (.xorReg x y)
       else if n.toNat = 0x4 then some (.addReg x y) else if n.toNat = 0x5 then some (.subReg x y)
       else if n.toNat = 0x6 then some (.shrReg x y) else if n.toNat = 0x7 then some (.subnReg x y)
       else if n.toNat = 0xE then some (.shlReg x y) else none) ∧
    decode (BitVec.ofNat 16 (0x9000 + x.val * 256 + y.val * 16 + n.toNat)) =
      (if n.toNat = 0 then some (.sneReg x y) else none) ∧
    decode (BitVec.ofNat 16 (0xA000 + nnn.toNat)) = some (.ldI nnn) ∧
    decode (BitVec.ofNat 16 (0xB000 + nnn.toNat)) = some (.jpV0 nnn) ∧
    decode (BitVec.ofNat 16 (0xC000 + x.val * 256 + nn.toNat)) = some (.rnd x nn) ∧
    decode (BitVec.ofNat 16 (0xD000 + x.val * 256 + y.val * 16 + n.toNat)) = some (.drw x y n) ∧
    decode (BitVec.ofNat 16 (0xE000 + x.val * 256 + nn.toNat)) =
      (if nn.toNat = 0x9E then some (.skp x) else if nn.toNat = 0xA1 then some (.sknp x) else none) ∧
    decode (BitVec.ofNat 16 (0xF000 + x.val * 256 + nn.toNat)) =
      (if nn.toNat = 0x07 then some (.ldXDt x) else if nn.toNat = 0x0A then some (.ldXK x)
       else if nn.toNat = 0x15 then some (.ldDtX x) else if nn.toNat = 0x18 then some (.ldStX x)
       else if nn.toNat = 0x1E then some (.addIX x) else if nn.toNat = 0x29 then some (.ldFX x)
       else if nn.toNat = 0x33 then some (.ldBX x) else if nn.toNat = 0x55 then some (.ldMemX x)
       else if nn.toNat = 0x65 then some (.ldXMem x) else if nn.toNat = 0xFF then some .halt else none)

/-- The illegal words are exactly those of R107's table (which the spec derives from R104), at the head of any byte string; a
string of fewer than two bytes is rejected as truncated (R100). -/
def Obligations.IllegalWordsAreThoseListed : Prop :=
  (∀ (hi lo : Byte) (rest : List Byte),
    let w := hi.toNat * 256 + lo.toNat
    (decodeBytes (hi :: lo :: rest) = .error (.invalid (BitVec.ofNat 16 w)) ↔
      (w / 4096 = 0x5 ∧ w % 16 ≠ 0) ∨
      (w / 4096 = 0x8 ∧ w % 16 ∈ [0x8, 0x9, 0xA, 0xB, 0xC, 0xD, 0xF]) ∨
      (w / 4096 = 0x9 ∧ w % 16 ≠ 0) ∨
      (w / 4096 = 0xE ∧ w % 256 ∉ [0x9E, 0xA1]) ∨
      (w / 4096 = 0xF ∧ w % 256 ∉ [0x07, 0x0A, 0x15, 0x18, 0x1E, 0x29, 0x33, 0x55, 0x65, 0xFF])) ∧
    ((∃ i, decodeBytes (hi :: lo :: rest) = .ok (i, rest)) ∨
      decodeBytes (hi :: lo :: rest) = .error (.invalid (BitVec.ofNat 16 w)))) ∧
  (∀ b : Byte, decodeBytes [b] = .error .truncated) ∧ decodeBytes [] = .error .truncated

/-- R105: class-0 words match on the whole word; every other one is SYS with its low 12 bits. -/
def Obligations.ClassZeroMatchesOnTheWholeWord : Prop :=
  ∀ w : Word, w.toNat < 0x1000 →
    (decode w = some .cls ↔ w = 0x00E0#16) ∧ (decode w = some .ret ↔ w = 0x00EE#16) ∧
    (w ≠ 0x00E0#16 → w ≠ 0x00EE#16 → decode w = some (.sys (BitVec.ofNat 12 w.toNat)))

/-- R106 (with D39 and D11): any X decodes to HALT; Y of SHR and SHL, and NNN of SYS in `Nop` mode, change nothing. -/
def Obligations.IgnoredFieldsChangeNothing : Prop :=
  (∀ x : Reg, decode (BitVec.ofNat 16 (0xF0FF + x.val * 256)) = some .halt) ∧
  (∀ (x y y' : Reg) (s : State), exec (.shrReg x y) s = exec (.shrReg x y') s ∧ exec (.shlReg x y) s = exec (.shlReg x y') s) ∧
  (∀ (nnn nnn' : Addr12) (s : State), exec (.sys nnn) s = exec (.sys nnn') s)

/-- A sanity statement: twelve legal words, one or more per family, and two illegal ones, written out from the spec's encodings
(95_test_vectors.md 2.1 and the examples of each rule). That 0xFFFF is HALT is the spec's own decision D39 (R106; log 10). -/
def Obligations.WrittenOutWordsDecode : Prop :=
  decodeTableWord 16 0x00E0 = some .cls ∧ decodeTableWord 16 0x00EE = some .ret ∧
  decodeTableWord 16 0x01E0 = some (.sys 0x1E0#12) ∧ decodeTableWord 16 0x1234 = some (.jp 0x234#12) ∧
  decodeTableWord 16 0x5120 = some (.seReg 1 2) ∧ decodeTableWord 16 0x5121 = none ∧
  decodeTableWord 16 0x6103 = some (.ldImm 1 0x03#8) ∧ decodeTableWord 16 0x8014 = some (.addReg 0 1) ∧
  decodeTableWord 16 0xD015 = some (.drw 0 1 0x5#4) ∧ decodeTableWord 16 0xE59E = some (.skp 5) ∧
  decodeTableWord 16 0xF033 = some (.ldBX 0) ∧ decodeTableWord 16 0xF50A = some (.ldXK 5) ∧
  decodeTableWord 16 0xFFFF = some .halt ∧ decodeTableWord 16 0xF000 = none

/-! ## The step -/

/-- A step runs the decoded instruction: where the two bytes at PC decode to `i`, step is exec of `i` (40_step.md R140, R144);
nothing is added around exec. -/
def Obligations.StepRunsTheDecodedInstruction : Prop :=
  ∀ (s : State) (i : Instr), s.running = true → s.pc.toNat + 1 < memSize →
    decodeBytes (s.mem.readBytes s.pc.toNat 2) = .ok (i, []) → step s = exec i s

/-- R142: the fetch reads the big-endian word at PC after the bounds check. Out of bounds it faults at the lower bad address
(R140, and R77, which the spec derives), with no word in the record (R311; log 4). -/
def Obligations.FetchIsBigEndianAndBoundsChecked : Prop :=
  ∀ s : State,
    (s.pc.toNat + 1 < memSize →
      ∃ w : Word, s.fetchWord = some w ∧ w.toNat = (s.mem.read s.pc.toNat).toNat * 256 + (s.mem.read (s.pc.toNat + 1)).toNat) ∧
    (memSize ≤ s.pc.toNat + 1 → s.running = true →
      step s = .fault (.raised (.memory .outOfBounds) s.pc none (if memSize ≤ s.pc.toNat then s.pc.toNat else s.pc.toNat + 1)))

/-- R143: an illegal word faults with the offending word and its address, which is PC. -/
def Obligations.IllegalWordFaultsWithWordAndAddress : Prop :=
  ∀ (s : State) (w : Word), s.running = true → s.fetchWord = some w → decode w = none →
    step s = .fault (.raised .illegalInstruction s.pc (some w) s.pc.toNat)

/-- R141 (the spec's own decision D10; log 5): a stopped core has no step; the transaction changes nothing and answers
`Stopped`. -/
def Obligations.StoppedCoreHasNoStep : Prop :=
  ∀ s : State, s.running = false → step s = .refused .stopped ∧ transact s .step = (s, .stopped)

/-- R146, R316, R317 (the spec's own decision D9; log 4): a faulting step commits nothing; it writes the record and clears
`running`, and the record holds PC and the word at PC. -/
def Obligations.FaultingStepCommitsNothing : Prop :=
  ∀ (s : State) (f : Fault), step s = .fault f →
    transact s .step = ({ s with fault := some f, running := false }, .fault f) ∧
    ∃ cause addr, f = .raised cause s.pc s.fetchWord addr

/-- R145, R35: a step that succeeds counts one cycle and leaves PC inside Memory; it was taken by a running core, and leaves the
fault record and `tone` alone. -/
def Obligations.SuccessfulStepCountsAndStaysInMemory : Prop :=
  ∀ s t : State, step s = .next t →
    s.running = true ∧ t.cycles = s.cycles + 1 ∧ t.pc.toNat < memSize ∧ t.fault = s.fault ∧ t.tone = s.tone

/-! ## The whole machine -/

/-- Every step keeps the invariant: Memory canonical, glyphs intact, PC in Memory, SP even and bounded, a fault record only in a
stopped core (R35, R37, R351). -/
def Obligations.StepKeepsTheMachineInvariant : Prop := ∀ s t : State, s.Inv → step s = .next t → t.Inv

/-- The invariant holds after construction (R55). -/
def Obligations.ResetMeetsTheMachineInvariant : Prop := State.reset.Inv

/-- R8: the invariant holds after every interleaving of steps and host operations. -/
def Obligations.EveryInterleavingKeepsTheMachineInvariant : Prop :=
  ∀ (s : State) (ts : List Transaction), s.Inv → (runTransactions s ts).Inv

/-- R351 (which the spec derives from R78 and R352): no transaction changes a byte of the glyph table, in any state. -/
def Obligations.GlyphTableIsNeverWritten : Prop :=
  ∀ (s : State) (tr : Transaction) (a : Nat), isGlyphAddr a = true → (transact s tr).1.mem.read a = s.mem.read a

/-- R40: only `key_down` and `key_up` change the input latch; the core never writes it. -/
def Obligations.OnlyKeyEventsChangeTheLatch : Prop :=
  ∀ (s : State) (tr : Transaction), (transact s tr).1.keys ≠ s.keys → ∃ k, tr = .keyDown k ∨ tr = .keyUp k

/-- R39, R295: a step changes a timer only by FX15 and FX18, which give it VX. -/
def Obligations.StepChangesTimersOnlyByTheirLoads : Prop :=
  ∀ s t : State, step s = .next t →
    (t.dt ≠ s.dt → ∃ x, s.fetchWord.bind decode = some (.ldDtX x) ∧ t.dt = s.reg x) ∧
    (t.st ≠ s.st → ∃ x, s.fetchWord.bind decode = some (.ldStX x) ∧ t.st = s.reg x)

/-- R41: only 00E0 and DXYN change a framebuffer cell. -/
def Obligations.OnlyClsAndDrwWriteTheFramebuffer : Prop :=
  ∀ (s : State) (tr : Transaction) (c : Cell), (transact s tr).1.fb.lit c ≠ s.fb.lit c →
    tr = .step ∧ (s.fetchWord.bind decode = some .cls ∨ ∃ x y n, s.fetchWord.bind decode = some (.drw x y n))

/-- R42: 00E0 and DXYN set `draw` each time they execute, whether or not a cell changed, and only `clear_draw` clears it. That
nothing else sets it is R48's written-by column, with the spec's own decisions D40 for what an instruction does not list, D27 for
`load` and D26 for `reset` (log 11). -/
def Obligations.DirtyFlagIsSetByDrawingAndClearedByTheHost : Prop :=
  (∀ s t : State, step s = .next t →
    (s.fetchWord.bind decode = some .cls ∨ ∃ x y n, s.fetchWord.bind decode = some (.drw x y n)) → t.draw = true) ∧
  (∀ (s : State) (tr : Transaction), s.draw = false → (transact s tr).1.draw = true →
    tr = .step ∧ (s.fetchWord.bind decode = some .cls ∨ ∃ x y n, s.fetchWord.bind decode = some (.drw x y n))) ∧
  (∀ (s : State) (tr : Transaction), s.draw = true → ((transact s tr).1.draw = false ↔ tr = .clearDraw))

/-- R38 (with D5, and D11 for `NATIVE_CALL_MODE = Nop`): a step changes SP only by CALL, which adds 2, and RET, which takes 2. -/
def Obligations.StackPointerMovesOnlyByCallAndReturn : Prop :=
  ∀ s t : State, step s = .next t → t.sp ≠ s.sp →
    (∃ nnn, s.fetchWord.bind decode = some (.call nnn) ∧ t.sp = s.sp + 2) ∨
    (s.fetchWord.bind decode = some .ret ∧ t.sp = s.sp - 2)

/-- R43 (with D9, D20): only a HALT that succeeds or a step that faults stops a running core, and only `reset` starts a stopped
one. -/
def Obligations.OnlyHaltAndFaultsStopAndOnlyResetStarts : Prop :=
  ∀ (s : State) (tr : Transaction),
    (s.running = true → (transact s tr).1.running = false →
      tr = .step ∧ ((s.fetchWord.bind decode = some .halt ∧ (transact s tr).2 = .ok) ∨ ∃ f, (transact s tr).2 = .fault f)) ∧
    (s.running = false → (transact s tr).1.running = true → tr = .reset)

/-- R44 (with D21): a step that succeeds adds 1 to `cycles`, and no other transaction changes it. -/
def Obligations.CyclesCountSuccessfulSteps : Prop :=
  ∀ (s : State) (tr : Transaction),
    (transact s tr).1.cycles = if tr = .step ∧ (transact s tr).2 = .ok then s.cycles + 1 else s.cycles

/-! ## Frames -/

/-- D40, R14: an instruction changes no piece of state but those its rule lists (the table `writtenParts`), PC and `cycles`. -/
def Obligations.InstructionsWriteOnlyTheirListedParts : Prop :=
  ∀ (i : Instr) (s t : State), exec i s = .next t → UnchangedExcept s t (writtenParts i)

/-- R32 (with D40): an instruction changes no general register but those R32's table lists (`writtenRegs`). -/
def Obligations.InstructionsWriteOnlyTheirListedRegisters : Prop :=
  ∀ (i : Instr) (s t : State), exec i s = .next t → RegsUnchangedExcept s t (writtenRegs i)

/-- R72 (with D40): an instruction changes no byte of Memory outside the bytes it stores, at the address its meaning computes
(`storedRange`: `STACK_BASE + SP`, or I); all of Memory for an instruction that stores nothing. -/
def Obligations.InstructionsStoreOnlyToTheirBytes : Prop :=
  ∀ (i : Instr) (s t : State), exec i s = .next t → MemUnchangedOutside s t (storedRange i s).1 (storedRange i s).2

/-! ## ALU -/

/-- R201, R202, R203: load immediate, add immediate (wrapping, no flag), move. VF is written only as the destination. PcOutOfRange
at the end of Memory is R147's, the spec's own decision D7 (log 11). -/
def Obligations.LoadMoveAndAddImmediateResults : Prop :=
  ∀ (x y : Reg) (nn : Byte) (s : State),
    (s.pc.toNat + 2 < memSize →
      (∃ t, exec (.ldImm x nn) s = .next t ∧ Committed s t (s.pc.toNat + 2) ∧ t.reg x = nn ∧ RegsUnchangedExcept s t [x]) ∧
      (∃ t, exec (.addImm x nn) s = .next t ∧ Committed s t (s.pc.toNat + 2) ∧
        (t.reg x).toNat = ((s.reg x).toNat + nn.toNat) % 256 ∧ RegsUnchangedExcept s t [x]) ∧
      (∃ t, exec (.movReg x y) s = .next t ∧ Committed s t (s.pc.toNat + 2) ∧ t.reg x = s.reg y ∧ RegsUnchangedExcept s t [x])) ∧
    (memSize ≤ s.pc.toNat + 2 → ∀ i ∈ [Instr.ldImm x nn, .addImm x nn, .movReg x y],
      exec i s = faultAt s (.memory .pcOutOfRange) (s.pc.toNat + 2))

/-- R204, R205, R206: OR, AND, XOR bit by bit. That VF is unchanged but as the destination is the spec's own decision D15. -/
def Obligations.LogicalOperationsResults : Prop :=
  ∀ (x y : Reg) (s : State), s.pc.toNat + 2 < memSize →
    (∃ t, exec (.orReg x y) s = .next t ∧ Committed s t (s.pc.toNat + 2) ∧ RegsUnchangedExcept s t [x] ∧
      ∀ b : Nat, (t.reg x).getLsbD b = ((s.reg x).getLsbD b || (s.reg y).getLsbD b)) ∧
    (∃ t, exec (.andReg x y) s = .next t ∧ Committed s t (s.pc.toNat + 2) ∧ RegsUnchangedExcept s t [x] ∧
      ∀ b : Nat, (t.reg x).getLsbD b = ((s.reg x).getLsbD b && (s.reg y).getLsbD b)) ∧
    (∃ t, exec (.xorReg x y) s = .next t ∧ Committed s t (s.pc.toNat + 2) ∧ RegsUnchangedExcept s t [x] ∧
      ∀ b : Nat, (t.reg x).getLsbD b = ((s.reg x).getLsbD b ^^ (s.reg y).getLsbD b))

/-- R207: ADD with carry out. That the flag is final where X = F is the spec's own decision D14 (R200). -/
def Obligations.AddSetsCarry : Prop :=
  ∀ (x y : Reg) (s : State), s.pc.toNat + 2 < memSize →
    ∃ t, exec (.addReg x y) s = .next t ∧ Committed s t (s.pc.toNat + 2) ∧
      (x ≠ VF → (t.reg x).toNat = ((s.reg x).toNat + (s.reg y).toNat) % 256) ∧
      (t.reg VF).toNat = (if 255 < (s.reg x).toNat + (s.reg y).toNat then 1 else 0) ∧ RegsUnchangedExcept s t [x, VF]

/-- R208, R210: SUB is VX - VY and SUBN is VY - VX, modulo 256, and VF is NOT borrow. That the flag is final where X = F is the
spec's own decision D14 (R200). -/
def Obligations.SubtractionsSetNotBorrow : Prop :=
  ∀ (x y : Reg) (s : State), s.pc.toNat + 2 < memSize →
    (∃ t, exec (.subReg x y) s = .next t ∧ Committed s t (s.pc.toNat + 2) ∧
      (x ≠ VF → (t.reg x).toNat = ((s.reg x).toNat + 256 - (s.reg y).toNat) % 256) ∧
      (t.reg VF).toNat = (if (s.reg y).toNat ≤ (s.reg x).toNat then 1 else 0) ∧ RegsUnchangedExcept s t [x, VF]) ∧
    (∃ t, exec (.subnReg x y) s = .next t ∧ Committed s t (s.pc.toNat + 2) ∧
      (x ≠ VF → (t.reg x).toNat = ((s.reg y).toNat + 256 - (s.reg x).toNat) % 256) ∧
      (t.reg VF).toNat = (if (s.reg x).toNat ≤ (s.reg y).toNat then 1 else 0) ∧ RegsUnchangedExcept s t [x, VF])

/-- R209, R211: the shifts move VX by one bit in place, and VF is the bit shifted out. That the flag is final where X = F is the
spec's own decision D14 (R200). -/
def Obligations.ShiftsSetTheShiftedOutBit : Prop :=
  ∀ (x y : Reg) (s : State), s.pc.toNat + 2 < memSize →
    (∃ t, exec (.shrReg x y) s = .next t ∧ Committed s t (s.pc.toNat + 2) ∧
      (x ≠ VF → (t.reg x).toNat = (s.reg x).toNat / 2) ∧
      (t.reg VF).toNat = (s.reg x).toNat % 2 ∧ RegsUnchangedExcept s t [x, VF]) ∧
    (∃ t, exec (.shlReg x y) s = .next t ∧ Committed s t (s.pc.toNat + 2) ∧
      (x ≠ VF → (t.reg x).toNat = 2 * (s.reg x).toNat % 256) ∧
      (t.reg VF).toNat = (s.reg x).toNat / 128 ∧ RegsUnchangedExcept s t [x, VF])

/-- R222 (with D19; log 3): RND gives the step's free byte masked by NN, so 0 wherever NN has 0, and moves on to the next free
byte. -/
def Obligations.RandomByteIsMasked : Prop :=
  ∀ (x : Reg) (nn : Byte) (s : State), s.pc.toNat + 2 < memSize →
    ∃ t, exec (.rnd x nn) s = .next t ∧ Committed s t (s.pc.toNat + 2) ∧ RegsUnchangedExcept s t [x] ∧
      t.rndIndex = s.rndIndex + 1 ∧
      (∀ b : Nat, (t.reg x).getLsbD b = ((Config.rnd s.rndIndex).getLsbD b && nn.getLsbD b)) ∧
      (∀ b : Nat, nn.getLsbD b = false → (t.reg x).getLsbD b = false)

/-! ## Control transfer -/

/-- R164, R168: JP goes to NNN; JP V0 goes to V0 + NNN, unwrapped, and faults where that is past the end of Memory. -/
def Obligations.JumpsGoToTheirTargets : Prop :=
  ∀ (nnn : Addr12) (s : State),
    (∃ t, exec (.jp nnn) s = .next t ∧ Committed s t nnn.toNat ∧ UnchangedExcept s t []) ∧
    ((s.reg 0).toNat + nnn.toNat < memSize →
      ∃ t, exec (.jpV0 nnn) s = .next t ∧ Committed s t ((s.reg 0).toNat + nnn.toNat) ∧ UnchangedExcept s t []) ∧
    (memSize ≤ (s.reg 0).toNat + nnn.toNat →
      exec (.jpV0 nnn) s = faultAt s (.memory .pcOutOfRange) ((s.reg 0).toNat + nnn.toNat))

/-- R166, R160 (SP's form is D5, the fault's kind D6): CALL pushes PC + 2 big-endian at `STACK_BASE + SP`, adds 2 to SP and goes to
NNN; on a full stack it faults. -/
def Obligations.CallPushesTheReturnAddress : Prop :=
  ∀ (nnn : Addr12) (s : State),
    (s.sp.toNat ≠ 2 * stackDepth →
      ∃ t, exec (.call nnn) s = .next t ∧ Committed s t nnn.toNat ∧ t.sp = s.sp + 2 ∧
        (s.mem.wf = true →
          (t.mem.read (stackBase + s.sp.toNat)).toNat = (s.pc.toNat + 2) / 256 % 256 ∧
          (t.mem.read (stackBase + s.sp.toNat + 1)).toNat = (s.pc.toNat + 2) % 256)) ∧
    (s.sp.toNat = 2 * stackDepth →
      exec (.call nnn) s = faultAt s (.memory .stackOverflow) (stackBase + 2 * stackDepth))

/-- R161, R160 (SP's form is D5, the fault's kind D6, the range fault D7): RET takes the big-endian word below `STACK_BASE + SP` as
PC and takes 2 from SP; it faults on an empty stack and on a word past the end of Memory. -/
def Obligations.ReturnPopsTheReturnAddress : Prop :=
  ∀ s : State,
    let r := (s.mem.read (stackBase + s.sp.toNat - 2)).toNat * 256 + (s.mem.read (stackBase + s.sp.toNat - 1)).toNat
    (s.sp.toNat ≠ 0 → r < memSize → ∃ t, exec .ret s = .next t ∧ Committed s t r ∧ t.sp = s.sp - 2) ∧
    (s.sp.toNat ≠ 0 → memSize ≤ r → exec .ret s = faultAt s (.memory .pcOutOfRange) r) ∧
    (s.sp.toNat = 0 → exec .ret s = faultAt s (.memory .stackUnderflow) stackBase)

/-- R173: a CALL that succeeds, whose target holds 00EE, is followed by a RET to the instruction after the CALL with SP as before
the call. A CALL in the last word of Memory is followed by the fault R166 and R161 name, which is R147's, the spec's own decision D7
(log 11); the bound on SP is R37's (D5). -/
def Obligations.CallThenReturnComesBack : Prop :=
  ∀ (nnn : Addr12) (s t : State), s.mem.wf = true → s.sp.toNat ≤ 2 * stackDepth →
    s.fetchWord.bind decode = some (.call nnn) → step s = .next t → t.fetchWord = some 0x00EE#16 →
    (s.pc.toNat + 2 < memSize → ∃ u, step t = .next u ∧ u.pc.toNat = s.pc.toNat + 2 ∧ u.sp = s.sp) ∧
    (memSize ≤ s.pc.toNat + 2 → step t = faultAt t (.memory .pcOutOfRange) (s.pc.toNat + 2))

/-- R162 (with D11; log 2): SYS is a no-op in this hardware's `Nop` mode; in `Call` mode it would do what CALL does. -/
def Obligations.NativeCallInBothModes : Prop :=
  ∀ (nnn : Addr12) (s : State),
    (s.pc.toNat + 2 < memSize →
      ∃ t, exec (.sys nnn) s = .next t ∧ Committed s t (s.pc.toNat + 2) ∧ UnchangedExcept s t []) ∧
    finish s (nativeCall .call nnn s) = exec (.call nnn) s

/-- R170 (with D20): HALT succeeds, clears `running` and leaves the fault record, so a core without a fault record is Halted. -/
def Obligations.HaltStopsCleanly : Prop :=
  ∀ s : State, s.pc.toNat + 2 < memSize →
    ∃ t, exec .halt s = .next t ∧ Committed s t (s.pc.toNat + 2) ∧ t.running = false ∧ t.fault = s.fault ∧
      (s.fault = none → t.runState = .halted) ∧ step t = .refused .stopped

/-! ## Skips -/

/-- R180 to R184: the comparing skips go to PC + 4 when their condition holds and to PC + 2 otherwise, write nothing, and fault
where that is past the end of Memory (R147, the spec's own decision D7; log 11). -/
def Obligations.ComparingSkips : Prop :=
  ∀ (x y : Reg) (nn : Byte) (s : State) (i : Instr) (c : Bool),
    (i, c) ∈ [(.seImm x nn, decide ((s.reg x).toNat = nn.toNat)), (.sneImm x nn, decide ((s.reg x).toNat ≠ nn.toNat)),
      (.seReg x y, decide ((s.reg x).toNat = (s.reg y).toNat)), (.sneReg x y, decide ((s.reg x).toNat ≠ (s.reg y).toNat))] →
    (s.pc.toNat + (if c then 4 else 2) < memSize →
      ∃ t, exec i s = .next t ∧ Committed s t (s.pc.toNat + (if c then 4 else 2)) ∧ UnchangedExcept s t []) ∧
    (memSize ≤ s.pc.toNat + (if c then 4 else 2) →
      exec i s = faultAt s (.memory .pcOutOfRange) (s.pc.toNat + (if c then 4 else 2)))

/-- R185, R187 (R186 is the spec's own decision D17, the range fault D7): the key skips test the key VX names and write nothing;
a key index past 15 faults, whatever PC is. -/
def Obligations.KeySkips : Prop :=
  ∀ (x : Reg) (s : State),
    let held := s.keys.getLsbD (s.reg x).toNat
    (∀ (i : Instr) (c : Bool), (i, c) ∈ [(.skp x, held), (.sknp x, !held)] →
      ((s.reg x).toNat ≤ 15 → s.pc.toNat + (if c then 4 else 2) < memSize →
        ∃ t, exec i s = .next t ∧ Committed s t (s.pc.toNat + (if c then 4 else 2)) ∧ UnchangedExcept s t []) ∧
      ((s.reg x).toNat ≤ 15 → memSize ≤ s.pc.toNat + (if c then 4 else 2) →
        exec i s = faultAt s (.memory .pcOutOfRange) (s.pc.toNat + (if c then 4 else 2))) ∧
      (15 < (s.reg x).toNat → exec i s = faultAt s (.operand .keyIndex) s.pc.toNat))

/-! ## Index register and memory -/

/-- R242, R243, R245 (the overflow of I is the spec's own decision D16 of R241, the digit past 15 is D17 of R246, no flag is
D15): what ANNN, FX1E and FX29 put in I. -/
def Obligations.IndexRegisterResults : Prop :=
  ∀ (x : Reg) (nnn : Addr12) (s : State),
    (s.pc.toNat + 2 < memSize →
      ∃ t, exec (.ldI nnn) s = .next t ∧ Committed s t (s.pc.toNat + 2) ∧ t.i.toNat = nnn.toNat) ∧
    (s.pc.toNat + 2 < memSize → s.i.toNat + (s.reg x).toNat ≤ 0xFFFF →
      ∃ t, exec (.addIX x) s = .next t ∧ Committed s t (s.pc.toNat + 2) ∧ t.i.toNat = s.i.toNat + (s.reg x).toNat ∧
        RegsUnchangedExcept s t []) ∧
    (0xFFFF < s.i.toNat + (s.reg x).toNat → exec (.addIX x) s = faultAt s (.memory .indexOverflow) s.i.toNat) ∧
    (s.pc.toNat + 2 < memSize → (s.reg x).toNat ≤ 15 →
      ∃ t, exec (.ldFX x) s = .next t ∧ Committed s t (s.pc.toNat + 2) ∧ t.i.toNat = glyphBase + glyphBytes * (s.reg x).toNat) ∧
    (15 < (s.reg x).toNat → exec (.ldFX x) s = faultAt s (.operand .glyphIndex) s.pc.toNat)

/-- R247 (the glyph-write fault is the spec's own decision D23 of R78): FX33 stores hundreds, tens and ones at I, I+1, I+2, and I
stays; out of bounds or in the glyph table it faults at the lowest bad address. -/
def Obligations.BcdStoreWritesThreeDigits : Prop :=
  ∀ (x : Reg) (s : State),
    (s.i.toNat + 3 ≤ memSize → isGlyphAddr s.i.toNat = false → s.pc.toNat + 2 < memSize →
      ∃ t, exec (.ldBX x) s = .next t ∧ Committed s t (s.pc.toNat + 2) ∧ t.i = s.i ∧
        (s.mem.wf = true →
          (t.mem.read s.i.toNat).toNat = (s.reg x).toNat / 100 ∧
          (t.mem.read (s.i.toNat + 1)).toNat = (s.reg x).toNat % 100 / 10 ∧
          (t.mem.read (s.i.toNat + 2)).toNat = (s.reg x).toNat % 10)) ∧
    (memSize < s.i.toNat + 3 → exec (.ldBX x) s = faultAt s (.memory .outOfBounds) (max s.i.toNat memSize)) ∧
    (s.i.toNat + 3 ≤ memSize → isGlyphAddr s.i.toNat = true → exec (.ldBX x) s = faultAt s (.memory .glyphWrite) s.i.toNat)

/-- R248 (the glyph-write fault is the spec's own decision D23 of R78): FX55 stores V0..VX from I on and advances I by X + 1; out
of bounds or in the glyph table it faults at the lowest bad address. -/
def Obligations.RegisterDumpStoresV0ToVX : Prop :=
  ∀ (x : Reg) (s : State),
    (s.i.toNat + x.val + 1 ≤ memSize → isGlyphAddr s.i.toNat = false → s.pc.toNat + 2 < memSize →
      ∃ t, exec (.ldMemX x) s = .next t ∧ Committed s t (s.pc.toNat + 2) ∧ t.i.toNat = s.i.toNat + x.val + 1 ∧
        (s.mem.wf = true → ∀ r : Reg, r ≤ x → t.mem.read (s.i.toNat + r.val) = s.reg r)) ∧
    (memSize < s.i.toNat + x.val + 1 → exec (.ldMemX x) s = faultAt s (.memory .outOfBounds) (max s.i.toNat memSize)) ∧
    (s.i.toNat + x.val + 1 ≤ memSize → isGlyphAddr s.i.toNat = true →
      exec (.ldMemX x) s = faultAt s (.memory .glyphWrite) s.i.toNat)

/-- R249 (the range fault of a full step is D7): FX65 loads V0..VX from I on, leaves the others, and advances I by X + 1; out of
bounds it faults at the lowest bad address. -/
def Obligations.RegisterLoadReadsV0ToVX : Prop :=
  ∀ (x : Reg) (s : State),
    (s.i.toNat + x.val + 1 ≤ memSize → s.pc.toNat + 2 < memSize →
      ∃ t, exec (.ldXMem x) s = .next t ∧ Committed s t (s.pc.toNat + 2) ∧ t.i.toNat = s.i.toNat + x.val + 1 ∧
        ∀ r : Reg, t.reg r = if r ≤ x then s.mem.read (s.i.toNat + r.val) else s.reg r) ∧
    (memSize < s.i.toNat + x.val + 1 → exec (.ldXMem x) s = faultAt s (.memory .outOfBounds) (max s.i.toNat memSize))

/-! ## Display -/

/-- R270: CLS clears every cell and sets `draw`; VF is not written. PcOutOfRange at the end of Memory is R147's, the spec's own
decision D7 (log 11). -/
def Obligations.ClsClearsTheScreen : Prop :=
  ∀ s : State,
    (s.pc.toNat + 2 < memSize →
      ∃ t, exec .cls s = .next t ∧ Committed s t (s.pc.toNat + 2) ∧ (∀ c : Cell, t.fb.lit c = false) ∧ t.draw = true ∧
        RegsUnchangedExcept s t []) ∧
    (memSize ≤ s.pc.toNat + 2 → exec .cls s = faultAt s (.memory .pcOutOfRange) (s.pc.toNat + 2))

/-- R271, R272 (clipping is the spec's own decision D12 of R273, the coordinates read before VF is written D13 of R274, every row
checked D37): DXYN toggles exactly the cells its set bits land on, VF is 1 exactly when one of them was lit, `draw` is set, I
stays; a row out of bounds faults even if it is off the screen. -/
def Obligations.DrwTogglesTheSpriteAndReportsCollision : Prop :=
  ∀ (x y : Reg) (n : Nibble) (s : State),
    let covers := SpriteCovers .clip s (s.reg x).toNat (s.reg y).toNat n.toNat
    ((n.toNat = 0 ∨ s.i.toNat + n.toNat ≤ memSize) → s.pc.toNat + 2 < memSize →
      ∃ t, exec (.drw x y n) s = .next t ∧ Committed s t (s.pc.toNat + 2) ∧
        (∀ c : Cell, t.fb.lit c ≠ s.fb.lit c ↔ covers c) ∧
        (t.reg VF = 1 ↔ ∃ c : Cell, covers c ∧ s.fb.lit c = true) ∧ (t.reg VF = 0 ∨ t.reg VF = 1) ∧
        t.draw = true ∧ t.i = s.i ∧ RegsUnchangedExcept s t [VF]) ∧
    (n.toNat ≠ 0 → memSize < s.i.toNat + n.toNat →
      exec (.drw x y n) s = faultAt s (.memory .outOfBounds) (max s.i.toNat memSize))

/-- R273's other parameter value (D12; log 2): under `Wrap` the sprite's bits land at their coordinates modulo the screen. All the
rest is as under `Clip`: VF, `draw`, I, the other registers, and the fault of a row out of bounds (R271, R272; the check of every
row is D37). -/
def Obligations.DrwUnderWrapTogglesModuloTheScreen : Prop :=
  ∀ (x y : Reg) (n : Nibble) (s : State),
    let covers := SpriteCovers .wrap s (s.reg x).toNat (s.reg y).toNat n.toNat
    ((n.toNat = 0 ∨ s.i.toNat + n.toNat ≤ memSize) → s.pc.toNat + 2 < memSize →
      ∃ t, drawWith .wrap x y n s = .next t ∧ Committed s t (s.pc.toNat + 2) ∧
        (∀ c : Cell, t.fb.lit c ≠ s.fb.lit c ↔ covers c) ∧
        (t.reg VF = 1 ↔ ∃ c : Cell, covers c ∧ s.fb.lit c = true) ∧ (t.reg VF = 0 ∨ t.reg VF = 1) ∧
        t.draw = true ∧ UnchangedExcept s t [.regs, .fb, .draw] ∧ RegsUnchangedExcept s t [VF]) ∧
    ((n.toNat = 0 ∨ s.i.toNat + n.toNat ≤ memSize) → memSize ≤ s.pc.toNat + 2 →
      drawWith .wrap x y n s = faultAt s (.memory .pcOutOfRange) (s.pc.toNat + 2)) ∧
    (n.toNat ≠ 0 → memSize < s.i.toNat + n.toNat →
      drawWith .wrap x y n s = faultAt s (.memory .outOfBounds) (max s.i.toNat memSize))

/-- R275 (which the spec derives from R271 and R272), under either edge policy: the second of two identical draws restores every
cell, and its VF is 1 exactly when the first draw lit a cell; on target cells that were all dark, exactly when the sprite has a
set bit on the screen. -/
def Obligations.DrawingTwiceRestoresTheScreen : Prop :=
  (∀ (edge : DrawEdge) (x y : Reg) (n : Nibble) (s t : State), drawWith edge x y n s = .next t →
    t.reg x = s.reg x → t.reg y = s.reg y → t.pc.toNat + 2 < memSize →
    ∃ u, drawWith edge x y n t = .next u ∧ (∀ c : Cell, u.fb.lit c = s.fb.lit c) ∧
      (u.reg VF = 1 ↔ ∃ c : Cell, s.fb.lit c = false ∧ t.fb.lit c = true) ∧
      ((∀ c : Cell, SpriteCovers edge s (s.reg x).toNat (s.reg y).toNat n.toNat c → s.fb.lit c = false) →
        (u.reg VF = 1 ↔ ∃ c : Cell, SpriteCovers edge s (s.reg x).toNat (s.reg y).toNat n.toNat c))) ∧
  (∀ (x y : Reg) (n : Nibble) (s : State), exec (.drw x y n) s = drawWith .clip x y n s)

/-! ## Timers and input latch -/

/-- R290, R293, R294: FX07 reads DT; FX15 and FX18 load DT and ST; none of them touches `tone`, and reading leaves DT. PcOutOfRange
at the end of Memory is R147's, the spec's own decision D7 (log 11). -/
def Obligations.TimerTransfers : Prop :=
  ∀ (x : Reg) (s : State),
    (s.pc.toNat + 2 < memSize →
      (∃ t, exec (.ldXDt x) s = .next t ∧ Committed s t (s.pc.toNat + 2) ∧ t.reg x = s.dt ∧ t.dt = s.dt ∧ t.tone = s.tone ∧
        RegsUnchangedExcept s t [x]) ∧
      (∃ t, exec (.ldDtX x) s = .next t ∧ Committed s t (s.pc.toNat + 2) ∧ t.dt = s.reg x ∧ t.tone = s.tone ∧
        RegsUnchangedExcept s t []) ∧
      (∃ t, exec (.ldStX x) s = .next t ∧ Committed s t (s.pc.toNat + 2) ∧ t.st = s.reg x ∧ t.tone = s.tone ∧
        RegsUnchangedExcept s t [])) ∧
    (memSize ≤ s.pc.toNat + 2 → ∀ i ∈ [Instr.ldXDt x, .ldDtX x, .ldStX x],
      exec i s = faultAt s (.memory .pcOutOfRange) (s.pc.toNat + 2))

/-- R291 (the lowest of several keys is the spec's own decision D18 of R292; log 9): while no key is held FX0A stays at its
address and only counts the step; otherwise VX takes the lowest key held, which stays held. -/
def Obligations.KeyWaitTakesTheLowestKeyHeld : Prop :=
  ∀ (x : Reg) (s : State),
    (s.keys = 0 → s.pc.toNat < memSize →
      ∃ t, exec (.ldXK x) s = .next t ∧ Committed s t s.pc.toNat ∧ UnchangedExcept s t []) ∧
    (s.keys ≠ 0 → s.pc.toNat + 2 < memSize →
      ∃ (k : Nat) (t : State), exec (.ldXK x) s = .next t ∧ Committed s t (s.pc.toNat + 2) ∧ (t.reg x).toNat = k ∧
        s.keys.getLsbD k = true ∧ (∀ j : Nat, j < k → s.keys.getLsbD j = false) ∧ t.keys = s.keys ∧ RegsUnchangedExcept s t [x])

/-- R149: the key wait is a self-transition of the step; `cycles` counts it and nothing else changes. -/
def Obligations.WaitingForKeyIsASelfTransition : Prop :=
  ∀ s : State, s.runState = .waitingForKey →
    ∃ t, step s = .next t ∧ Committed s t s.pc.toNat ∧ UnchangedExcept s t [] ∧ t.runState = .waitingForKey

/-! ## The end of Memory -/

/-- R147 (the spec's own decision D7; log 11): an instruction that would fall through past the end of Memory faults at `PC + 2` and
commits nothing, once its own fault conditions are passed (R148, D38). SYS is among them because `NATIVE_CALL_MODE` is `Nop` on
this hardware (R162, D11; log 2). -/
def Obligations.FallingOffTheEndOfMemoryFaults : Prop :=
  ∀ (x y : Reg) (nn : Byte) (nnn : Addr12) (n : Nibble) (s : State), memSize ≤ s.pc.toNat + 2 →
    (∀ i ∈ [Instr.cls, .sys nnn, .ldImm x nn, .addImm x nn, .movReg x y, .orReg x y, .andReg x y, .xorReg x y, .addReg x y,
        .subReg x y, .shrReg x y, .subnReg x y, .shlReg x y, .ldI nnn, .rnd x nn, .ldXDt x, .ldDtX x, .ldStX x, .halt],
      exec i s = faultAt s (.memory .pcOutOfRange) (s.pc.toNat + 2)) ∧
    (s.i.toNat + (s.reg x).toNat ≤ 0xFFFF → exec (.addIX x) s = faultAt s (.memory .pcOutOfRange) (s.pc.toNat + 2)) ∧
    ((s.reg x).toNat ≤ 15 → exec (.ldFX x) s = faultAt s (.memory .pcOutOfRange) (s.pc.toNat + 2)) ∧
    (s.keys ≠ 0 → exec (.ldXK x) s = faultAt s (.memory .pcOutOfRange) (s.pc.toNat + 2)) ∧
    ((n.toNat = 0 ∨ s.i.toNat + n.toNat ≤ memSize) → exec (.drw x y n) s = faultAt s (.memory .pcOutOfRange) (s.pc.toNat + 2)) ∧
    (s.i.toNat + 3 ≤ memSize → isGlyphAddr s.i.toNat = false →
      exec (.ldBX x) s = faultAt s (.memory .pcOutOfRange) (s.pc.toNat + 2)) ∧
    (s.i.toNat + x.val + 1 ≤ memSize → exec (.ldXMem x) s = faultAt s (.memory .pcOutOfRange) (s.pc.toNat + 2)) ∧
    (s.i.toNat + x.val + 1 ≤ memSize → isGlyphAddr s.i.toNat = false →
      exec (.ldMemX x) s = faultAt s (.memory .pcOutOfRange) (s.pc.toNat + 2))

/-- R85 (which the spec derives from R70, R81, R83): bytes FX55 stores at the next PC are what the next fetch reads. -/
def Obligations.StoredBytesAreFetchedNext : Prop :=
  ∀ (x : Reg) (s t : State) (j k : Reg), s.mem.wf = true → exec (.ldMemX x) s = .next t → k ≤ x → k.val = j.val + 1 →
    t.pc.toNat = s.i.toNat + j.val →
    ∃ w : Word, t.fetchWord = some w ∧ w.toNat = (s.reg j).toNat * 256 + (s.reg k).toNat

/-! ## The host -/

/-- R330: `key_down` sets one bit of the latch and `key_up` clears it; nothing else changes. -/
def Obligations.KeyEventsSetAndClearOneBit : Prop :=
  ∀ (s : State) (k : Key),
    (∀ j : Nat, (transact s (.keyDown k)).1.keys.getLsbD j = (s.keys.getLsbD j || decide (j = k.val))) ∧
    (∀ j : Nat, (transact s (.keyUp k)).1.keys.getLsbD j = (s.keys.getLsbD j && decide (j ≠ k.val))) ∧
    (∀ tr : Transaction, tr = .keyDown k ∨ tr = .keyUp k →
      (transact s tr).2 = .ok ∧ UnchangedExcept s (transact s tr).1 [.keys] ∧
      (transact s tr).1.pc = s.pc ∧ (transact s tr).1.cycles = s.cycles)

/-- R333, R335 (`tone` as a held bit is the spec's own decision D28, `clear_draw` D36): `dec_timers` takes both timers one down
with a floor of 0 and tells in `tone` whether ST stood at 1; `clear_draw` clears `draw`; neither changes anything else. -/
def Obligations.DecTimersAndClearDraw : Prop :=
  ∀ s : State,
    let t := (transact s .decTimers).1
    let u := (transact s .clearDraw).1
    t.dt.toNat = s.dt.toNat - 1 ∧ t.st.toNat = s.st.toNat - 1 ∧ (t.tone = true ↔ s.st.toNat = 1) ∧
    UnchangedExcept s t [.dt, .st, .tone] ∧ t.pc = s.pc ∧ t.cycles = s.cycles ∧
    u.draw = false ∧ UnchangedExcept s u [.draw] ∧ u.pc = s.pc ∧ u.cycles = s.cycles

/-- R352 (with D27): `load` copies an image that fits to the program window and touches nothing else; a longer one is a LoadFault
that changes nothing. -/
def Obligations.LoadCopiesTheImageOrRejectsIt : Prop :=
  ∀ (s : State) (image : List Byte),
    (image.length ≤ progWindow →
      ∃ t, transact s (.load image) = (t, .ok) ∧ UnchangedExcept s t [.mem] ∧ t.pc = s.pc ∧ t.cycles = s.cycles ∧
        MemUnchangedOutside s t progOffset image.length ∧
        (s.mem.wf = true → ∀ (j : Nat) (b : Byte), image[j]? = some b → t.mem.read (progOffset + j) = b)) ∧
    (progWindow < image.length → transact s (.load image) = (s, .loadFault))

/-- R354 (the spec's own decision D26): `reset()` restores the registers, I, PC, SP, the timers, `running` and `fault`, and keeps
Memory, FB, `draw`, KEYS, `cycles` and `tone`. -/
def Obligations.HostResetRestoresTheDynamicState : Prop :=
  ∀ s : State,
    let t := (transact s .reset).1
    (∀ r : Reg, t.reg r = 0) ∧ t.i = 0 ∧ t.pc.toNat = progOffset ∧ t.sp = 0 ∧ t.dt = 0 ∧ t.st = 0 ∧ t.running = true ∧
    t.fault = none ∧ t.mem = s.mem ∧ t.fb = s.fb ∧ t.draw = s.draw ∧ t.keys = s.keys ∧ t.cycles = s.cycles ∧ t.tone = s.tone

/-- R41 (the row-major layout is the spec's own decision D22): the host sees 2048 bytes, byte `y*64 + x` being cell `(x, y)` as 0
or 1. -/
def Obligations.HostSeesCellsRowMajor : Prop :=
  ∀ s : State, s.outputs.framebuffer.length = 2048 ∧
    ∀ c : Cell, s.outputs.framebuffer[c.2.val * 64 + c.1.val]? = some (if s.fb.lit c then 1 else 0)
end

