-- ==== Sys2Proof/Laws/Decode.lean ====
section
/-! SUPPORT. Laws of the encoding: the fields of each layout (spec/30_encoding.md R101, R103), and a word put together from its fields. -/

namespace Sys2Proof

/-! ## Fields of the layouts -/

theorem classField_layoutFA (c : Nibble) (nnn : Addr12) : classField (layoutFA c nnn) = c := by
  apply BitVec.eq_of_getLsbD_eq
  intro i hi
  simp only [classField, layoutFA, BitVec.getLsbD_extractLsb', BitVec.getLsbD_append]
  simp [hi]

theorem nnnField_layoutFA (c : Nibble) (nnn : Addr12) : nnnField (layoutFA c nnn) = nnn := by
  apply BitVec.eq_of_getLsbD_eq
  intro i hi
  simp only [nnnField, layoutFA, BitVec.getLsbD_extractLsb', BitVec.getLsbD_append]
  simp [hi]

theorem classField_layoutFXI (c : Nibble) (x : Reg) (nn : Byte) : classField (layoutFXI c x nn) = c := by
  apply BitVec.eq_of_getLsbD_eq
  intro i hi
  simp only [classField, layoutFXI, BitVec.getLsbD_extractLsb', BitVec.getLsbD_append]
  have h1 : ¬ 12 + i < 8 := by omega
  have h2 : ¬ 12 + i - 8 < 4 := by omega
  have h3 : 12 + i - 8 - 4 = i := by omega
  simp [hi, h1, h2, h3]

theorem nnField_layoutFXI (c : Nibble) (x : Reg) (nn : Byte) : nnField (layoutFXI c x nn) = nn := by
  apply BitVec.eq_of_getLsbD_eq
  intro i hi
  simp only [nnField, layoutFXI, BitVec.getLsbD_extractLsb', BitVec.getLsbD_append]
  simp [hi]

theorem extract_eq_toFin {w : Word} {lo : Nat} {r : Reg} (h : w.extractLsb' lo 4 = regBits r) :
    (w.extractLsb' lo 4).toFin = r := by
  rw [h]; rfl

theorem xField_layoutFXI (c : Nibble) (x : Reg) (nn : Byte) : xField (layoutFXI c x nn) = x := by
  refine extract_eq_toFin (BitVec.eq_of_getLsbD_eq fun i hi => ?_)
  simp only [layoutFXI, BitVec.getLsbD_extractLsb', BitVec.getLsbD_append]
  have h1 : ¬ 8 + i < 8 := by omega
  have h3 : 8 + i - 8 = i := by omega
  simp [hi]

theorem classField_layoutFXYN (c : Nibble) (x y : Reg) (n : Nibble) : classField (layoutFXYN c x y n) = c := by
  apply BitVec.eq_of_getLsbD_eq
  intro i hi
  simp only [classField, layoutFXYN, BitVec.getLsbD_extractLsb', BitVec.getLsbD_append]
  have h1 : ¬ 12 + i < 4 := by omega
  have h2 : ¬ 12 + i - 4 < 4 := by omega
  have h3 : ¬ 12 + i - 4 - 4 < 4 := by omega
  have h4 : 12 + i - 4 - 4 - 4 = i := by omega
  simp [hi, h1, h2, h3, h4]

theorem nField_layoutFXYN (c : Nibble) (x y : Reg) (n : Nibble) : nField (layoutFXYN c x y n) = n := by
  apply BitVec.eq_of_getLsbD_eq
  intro i hi
  simp only [nField, layoutFXYN, BitVec.getLsbD_extractLsb', BitVec.getLsbD_append]
  simp [hi]

theorem xField_layoutFXYN (c : Nibble) (x y : Reg) (n : Nibble) : xField (layoutFXYN c x y n) = x := by
  refine extract_eq_toFin (BitVec.eq_of_getLsbD_eq fun i hi => ?_)
  simp only [layoutFXYN, BitVec.getLsbD_extractLsb', BitVec.getLsbD_append]
  have h1 : ¬ 8 + i < 4 := by omega
  have h2 : ¬ 8 + i - 4 < 4 := by omega
  have h3 : 8 + i - 4 - 4 = i := by omega
  simp [hi, h1, h2, h3]

theorem yField_layoutFXYN (c : Nibble) (x y : Reg) (n : Nibble) : yField (layoutFXYN c x y n) = y := by
  refine extract_eq_toFin (BitVec.eq_of_getLsbD_eq fun i hi => ?_)
  simp only [layoutFXYN, BitVec.getLsbD_extractLsb', BitVec.getLsbD_append]
  have h1 : ¬ 4 + i < 4 := by omega
  have h3 : 4 + i - 4 = i := by omega
  simp [hi]

/-! ## A word from its fields -/

theorem regBits_toFin (b : Nibble) : regBits b.toFin = b := rfl

theorem word_eq_layoutFA (w : Word) : w = layoutFA (classField w) (nnnField w) := by
  apply BitVec.eq_of_getLsbD_eq
  intro i hi
  simp only [layoutFA, classField, nnnField, BitVec.getLsbD_append, BitVec.getLsbD_extractLsb']
  by_cases h : i < 12
  · simp [h]
  · have h1 : i - 12 < 4 := by omega
    have h2 : 12 + (i - 12) = i := by omega
    simp [h, h1, h2]

theorem word_eq_layoutFXI (w : Word) : w = layoutFXI (classField w) (xField w) (nnField w) := by
  apply BitVec.eq_of_getLsbD_eq
  intro i hi
  simp only [layoutFXI, classField, xField, nnField, regBits_toFin, BitVec.getLsbD_append, BitVec.getLsbD_extractLsb']
  by_cases h : i < 8
  · simp [h]
  · by_cases h' : i - 8 < 4
    · have h2 : 8 + (i - 8) = i := by omega
      simp [h, h', h2]
    · have h1 : i - 8 - 4 < 4 := by omega
      have h2 : 12 + (i - 8 - 4) = i := by omega
      simp [h, h', h1, h2]

theorem word_eq_layoutFXYN (w : Word) : w = layoutFXYN (classField w) (xField w) (yField w) (nField w) := by
  apply BitVec.eq_of_getLsbD_eq
  intro i hi
  simp only [layoutFXYN, classField, xField, yField, nField, regBits_toFin, BitVec.getLsbD_append, BitVec.getLsbD_extractLsb']
  by_cases h : i < 4
  · simp [h]
  · by_cases h' : i - 4 < 4
    · have h2 : 4 + (i - 4) = i := by omega
      simp [h, h', h2]
    · by_cases h'' : i - 4 - 4 < 4
      · have h2 : 8 + (i - 4 - 4) = i := by omega
        simp [h, h', h'', h2]
      · have h1 : i - 4 - 4 - 4 < 4 := by omega
        have h2 : 12 + (i - 4 - 4 - 4) = i := by omega
        simp [h, h', h'', h1, h2]

/-! ## Bytes -/

theorem hiByte_wordOfBytes (hi lo : Byte) : hiByte (wordOfBytes hi lo) = hi := by
  apply BitVec.eq_of_getLsbD_eq
  intro i h
  simp only [hiByte, wordOfBytes, BitVec.getLsbD_extractLsb', BitVec.getLsbD_append]
  simp [h]

theorem loByte_wordOfBytes (hi lo : Byte) : loByte (wordOfBytes hi lo) = lo := by
  apply BitVec.eq_of_getLsbD_eq
  intro i h
  simp only [loByte, wordOfBytes, BitVec.getLsbD_extractLsb', BitVec.getLsbD_append]
  simp [h]

/-- R75: the word is the first byte times 256 plus the second. -/
theorem wordOfBytes_toNat (hi lo : Byte) : (wordOfBytes hi lo).toNat = hi.toNat * 256 + lo.toNat := by
  rw [wordOfBytes, BitVec.toNat_append, Nat.shiftLeft_eq, Nat.mul_comm, ← Nat.two_pow_add_eq_or_of_lt lo.isLt]

theorem hiByte_toNat (r : Word) : (hiByte r).toNat = r.toNat / 256 := by
  simp only [hiByte, BitVec.extractLsb'_toNat, Nat.shiftRight_eq_div_pow]
  omega

theorem loByte_toNat (r : Word) : (loByte r).toNat = r.toNat % 256 := by
  simp only [loByte, BitVec.extractLsb'_toNat, Nat.shiftRight_zero]

/-! ## Fields and layouts as numbers -/

theorem classField_toNat (w : Word) : (classField w).toNat = w.toNat / 4096 := by
  simp only [classField, BitVec.extractLsb'_toNat, Nat.shiftRight_eq_div_pow]
  omega

theorem nField_toNat (w : Word) : (nField w).toNat = w.toNat % 16 := by
  simp only [nField, BitVec.extractLsb'_toNat, Nat.shiftRight_zero]

theorem nnField_toNat (w : Word) : (nnField w).toNat = w.toNat % 256 := by
  simp only [nnField, BitVec.extractLsb'_toNat, Nat.shiftRight_zero]

theorem nnnField_toNat (w : Word) : (nnnField w).toNat = w.toNat % 4096 := by
  simp only [nnnField, BitVec.extractLsb'_toNat, Nat.shiftRight_zero]

theorem regBits_toNat (x : Reg) : (regBits x).toNat = x.val := rfl

theorem toNat_append_eq {n m : Nat} (a : BitVec n) (b : BitVec m) : (a ++ b).toNat = a.toNat * 2 ^ m + b.toNat := by
  rw [BitVec.toNat_append, Nat.shiftLeft_eq, Nat.mul_comm, ← Nat.two_pow_add_eq_or_of_lt b.isLt]

/-- R103: format FA as a number. -/
theorem ofNat_layoutFA (c : Nibble) (nnn : Addr12) : BitVec.ofNat 16 (c.toNat * 4096 + nnn.toNat) = layoutFA c nnn := by
  apply BitVec.eq_of_toNat_eq
  have := c.isLt
  have := nnn.isLt
  rw [layoutFA, toNat_append_eq, BitVec.toNat_ofNat]
  omega

/-- R103: formats FXI and FX as a number. -/
theorem ofNat_layoutFXI (c : Nibble) (x : Reg) (nn : Byte) :
    BitVec.ofNat 16 (c.toNat * 4096 + x.val * 256 + nn.toNat) = layoutFXI c x nn := by
  apply BitVec.eq_of_toNat_eq
  have := c.isLt
  have := nn.isLt
  rw [layoutFXI, toNat_append_eq, toNat_append_eq, BitVec.toNat_ofNat, regBits_toNat]
  omega

/-- R103: formats FXY and FXYN as a number. -/
theorem ofNat_layoutFXYN (c : Nibble) (x y : Reg) (n : Nibble) :
    BitVec.ofNat 16 (c.toNat * 4096 + x.val * 256 + y.val * 16 + n.toNat) = layoutFXYN c x y n := by
  apply BitVec.eq_of_toNat_eq
  have := c.isLt
  have := n.isLt
  rw [layoutFXYN, toNat_append_eq, toNat_append_eq, toNat_append_eq, BitVec.toNat_ofNat, regBits_toNat, regBits_toNat]
  omega

end Sys2Proof
end

