-- ==== Sys2Proof/Laws/Memory.lean ====
section
/-! SUPPORT. Laws of Memory: read after write, the canonical form is kept, equal contents are equal data, range checks. -/

namespace Sys2Proof.Machine

/-! ## Reading after writing one byte -/

/-- Below the addresses a canonical tail lists, every byte is unlisted. -/
theorem Memory.read_of_wfFrom {m : Memory} {lo a : Nat} (h : Memory.wfFrom lo m = true) (ha : a < lo) :
    m.read a = unlistedByte a := by
  induction m generalizing lo with
  | nil => rfl
  | cons c m ih =>
    obtain ⟨k, b⟩ := c
    simp only [Memory.wfFrom, Bool.and_eq_true, decide_eq_true_eq] at h
    have hk : k ≠ a := by omega
    simp only [Memory.read, if_neg hk]
    exact ih h.2 (by omega)

theorem Memory.wfFrom_mono {m : Memory} {lo lo' : Nat} (h : Memory.wfFrom lo m = true) (hl : lo' ≤ lo) :
    Memory.wfFrom lo' m = true := by
  cases m with
  | nil => rfl
  | cons c m =>
    obtain ⟨k, b⟩ := c
    simp only [Memory.wfFrom, Bool.and_eq_true, decide_eq_true_eq] at h ⊢
    exact ⟨⟨⟨by omega, h.1.1.2⟩, h.1.2⟩, h.2⟩

/-- A write to `a` leaves every other address alone, in any memory. -/
theorem Memory.read_write_ne (m : Memory) {a a' : Nat} (b : Byte) (h : a' ≠ a) : (m.write a b).read a' = m.read a' := by
  have h' : ¬ a = a' := fun e => h e.symm
  induction m with
  | nil =>
    simp only [Memory.write]
    split <;> simp [Memory.read, h']
  | cons c m ih =>
    obtain ⟨k, c⟩ := c
    simp only [Memory.write]
    split
    · simp only [Memory.read, ih]
    · split
      · rename_i hk
        subst hk
        split <;> simp [Memory.read, h']
      · split <;> simp [Memory.read, h']

/-- In a memory in canonical form, a write to `a` is what the next read of `a` gives. -/
theorem Memory.read_write_same_from {m : Memory} {lo : Nat} (h : Memory.wfFrom lo m = true) (a : Nat) (b : Byte) :
    (m.write a b).read a = b := by
  induction m generalizing lo with
  | nil =>
    simp only [Memory.write]
    split
    · rename_i hb; rw [hb]; rfl
    · simp [Memory.read]
  | cons c m ih =>
    obtain ⟨k, c⟩ := c
    simp only [Memory.wfFrom, Bool.and_eq_true, decide_eq_true_eq] at h
    simp only [Memory.write]
    split
    · rename_i hk
      simp only [Memory.read, if_neg (Nat.ne_of_lt hk)]
      exact ih h.2
    · rename_i hk
      split
      · rename_i e
        subst e
        split
        · rename_i hb; rw [hb]; exact Memory.read_of_wfFrom h.2 (by omega)
        · simp [Memory.read]
      · split
        · rename_i hka hb
          rw [hb]
          simp only [Memory.read, if_neg hka]
          exact Memory.read_of_wfFrom h.2 (by omega)
        · simp [Memory.read]

theorem Memory.read_write {m : Memory} (h : m.wf = true) (a a' : Nat) (b : Byte) :
    (m.write a b).read a' = if a' = a then b else m.read a' := by
  split
  · rename_i e; subst e; exact Memory.read_write_same_from h _ b
  · rename_i e; exact Memory.read_write_ne m b e

/-! ## The canonical form -/

theorem Memory.wfFrom_write {m : Memory} {lo a : Nat} (b : Byte) (h : Memory.wfFrom lo m = true) (hlo : lo ≤ a) (ha : a < memSize) :
    Memory.wfFrom lo (m.write a b) = true := by
  induction m generalizing lo with
  | nil =>
    simp only [Memory.write]
    split
    · rfl
    · rename_i hb
      simp [Memory.wfFrom, hlo, ha, hb]
  | cons c m ih =>
    obtain ⟨k, c⟩ := c
    simp only [Memory.wfFrom, Bool.and_eq_true, decide_eq_true_eq] at h
    simp only [Memory.write]
    split
    · rename_i hk
      simp only [Memory.wfFrom, Bool.and_eq_true, decide_eq_true_eq]
      exact ⟨h.1, ih h.2 hk⟩
    · rename_i hk
      split
      · rename_i e
        subst e
        split
        · exact Memory.wfFrom_mono h.2 (by omega)
        · rename_i hb
          simp [Memory.wfFrom, hlo, ha, hb, h.2]
      · split
        · simp only [Memory.wfFrom, Bool.and_eq_true, decide_eq_true_eq]
          exact h
        · rename_i hka hb
          simp only [Memory.wfFrom, Bool.and_eq_true, decide_eq_true_eq]
          exact ⟨⟨⟨hlo, ha⟩, by simp [hb]⟩, ⟨⟨⟨by omega, h.1.1.2⟩, h.1.2⟩, h.2⟩⟩

/-- A write inside Memory keeps the canonical form. -/
theorem Memory.wf_write {m : Memory} {a : Nat} (b : Byte) (h : m.wf = true) (ha : a < memSize) : (m.write a b).wf = true :=
  Memory.wfFrom_write b h (Nat.zero_le _) ha

/-- Writing a string of bytes inside Memory keeps the canonical form. -/
theorem Memory.wf_writeBytes {m : Memory} {a : Nat} (bs : List Byte) (h : m.wf = true) (ha : a + bs.length ≤ memSize) :
    (m.writeBytes a bs).wf = true := by
  induction bs generalizing m a with
  | nil => exact h
  | cons b bs ih =>
    simp only [List.length_cons] at ha
    exact ih (Memory.wf_write b h (by omega)) (by omega)

theorem Memory.ext_from {m m' : Memory} {lo : Nat} (h : Memory.wfFrom lo m = true) (h' : Memory.wfFrom lo m' = true)
    (hr : ∀ a, m.read a = m'.read a) : m = m' := by
  induction m generalizing m' lo with
  | nil =>
    cases m' with
    | nil => rfl
    | cons c m' =>
      obtain ⟨k, b⟩ := c
      simp only [Memory.wfFrom, Bool.and_eq_true, bne_iff_ne] at h'
      have := hr k
      simp only [Memory.read, if_pos] at this
      exact absurd this.symm h'.1.2
  | cons c m ih =>
    obtain ⟨k, b⟩ := c
    cases m' with
    | nil =>
      simp only [Memory.wfFrom, Bool.and_eq_true, bne_iff_ne] at h
      have := hr k
      simp only [Memory.read, if_pos] at this
      exact absurd this h.1.2
    | cons c' m' =>
      obtain ⟨k', b'⟩ := c'
      simp only [Memory.wfFrom, Bool.and_eq_true, decide_eq_true_eq, bne_iff_ne] at h h'
      have hkk : k = k' := by
        rcases Nat.lt_trichotomy k k' with hlt | heq | hgt
        · have hh := hr k
          simp only [Memory.read, if_pos, if_neg (Nat.ne_of_gt hlt)] at hh
          rw [Memory.read_of_wfFrom h'.2 (by omega)] at hh
          exact absurd hh h.1.2
        · exact heq
        · have hh := hr k'
          simp only [Memory.read, if_pos, if_neg (Nat.ne_of_gt hgt)] at hh
          rw [Memory.read_of_wfFrom h.2 (by omega)] at hh
          exact absurd hh.symm h'.1.2
      subst hkk
      have hb := hr k
      simp only [Memory.read, if_pos] at hb
      subst hb
      have : m = m' := ih h.2 h'.2 (fun a => by
        by_cases ha : k = a
        · subst ha
          rw [Memory.read_of_wfFrom h.2 (by omega), Memory.read_of_wfFrom h'.2 (by omega)]
        · have hh := hr a
          simpa only [Memory.read, if_neg ha] using hh)
      rw [this]

/-- Two memories in canonical form that read alike are the same data. -/
theorem Memory.ext_of_wf {m m' : Memory} (h : m.wf = true) (h' : m'.wf = true) (hr : ∀ a, m.read a = m'.read a) : m = m' :=
  Memory.ext_from h h' hr

/-! ## Strings of bytes -/

theorem Memory.read_writeBytes_outside (m : Memory) {a a' : Nat} (bs : List Byte) (h : a' < a ∨ a + bs.length ≤ a') :
    (m.writeBytes a bs).read a' = m.read a' := by
  induction bs generalizing m a with
  | nil => rfl
  | cons b bs ih =>
    simp only [List.length_cons] at h
    rw [Memory.writeBytes, ih _ (by omega), Memory.read_write_ne _ _ (by omega)]

/-- Byte `j` of a stored string is what the address `a + j` then reads as. -/
theorem Memory.read_writeBytes_inside {m : Memory} (hm : m.wf = true) {a j : Nat} (bs : List Byte) (hj : j < bs.length)
    (ha : a + bs.length ≤ memSize) : (m.writeBytes a bs).read (a + j) = bs[j] := by
  induction bs generalizing m a j with
  | nil => simp at hj
  | cons b bs ih =>
    simp only [List.length_cons] at hj ha
    rw [Memory.writeBytes]
    cases j with
    | zero =>
      rw [Memory.read_writeBytes_outside _ _ (by omega), Nat.add_zero, Memory.read_write hm]
      simp
    | succ j =>
      have := ih (Memory.wf_write b hm (by omega : a < memSize)) (a := a + 1) (j := j) (by omega) (by omega)
      rw [show a + (j + 1) = a + 1 + j by omega, this]
      simp

theorem Memory.length_readBytes (m : Memory) (a n : Nat) : (m.readBytes a n).length = n := by
  induction n generalizing a with
  | zero => rfl
  | succ n ih => simp [Memory.readBytes, ih]

/-- Byte `j` of a string read from `a` on is the byte at `a + j`. -/
theorem Memory.getElem_readBytes (m : Memory) (a n j : Nat) (h : j < (m.readBytes a n).length) :
    (m.readBytes a n)[j] = m.read (a + j) := by
  induction n generalizing a j with
  | zero => simp [Memory.readBytes] at h
  | succ n ih =>
    cases j with
    | zero => simp [Memory.readBytes]
    | succ j =>
      simp only [Memory.readBytes, List.getElem_cons_succ]
      rw [ih]
      congr 1
      omega

/-! ## Words -/

theorem wordOfBytes_hiByte_loByte (r : Word) : wordOfBytes (hiByte r) (loByte r) = r := by
  apply BitVec.eq_of_getLsbD_eq
  intro i hi
  simp only [wordOfBytes, hiByte, loByte, BitVec.getLsbD_append, BitVec.getLsbD_extractLsb']
  by_cases h : i < 8
  · simp [h]
  · have : 8 + (i - 8) = i := by omega
    simp [h, this]
    omega

/-- A stored word reads back (big-endian both ways). -/
theorem Memory.readWord_writeWord {m : Memory} (hm : m.wf = true) {a : Nat} (ha : a + 1 < memSize) (r : Word) :
    (m.writeWord a r).readWord a = r := by
  have h0 := Memory.read_writeBytes_inside hm (a := a) (j := 0) [hiByte r, loByte r] (by simp) (by simp; omega)
  have h1 := Memory.read_writeBytes_inside hm (a := a) (j := 1) [hiByte r, loByte r] (by simp) (by simp; omega)
  rw [Nat.add_zero] at h0
  rw [Memory.readWord, Memory.writeWord, h0, h1]
  exact wordOfBytes_hiByte_loByte r

/-- R74, R75: the higher-order byte of a word lies at the lower address. -/
theorem Memory.read_writeWord {m : Memory} (hm : m.wf = true) {a : Nat} (ha : a + 1 < memSize) (r : Word) :
    (m.writeWord a r).read a = hiByte r ∧ (m.writeWord a r).read (a + 1) = loByte r :=
  ⟨Memory.read_writeBytes_inside hm (j := 0) [hiByte r, loByte r] (by simp) (Nat.succ_le_of_lt ha),
   Memory.read_writeBytes_inside hm (j := 1) [hiByte r, loByte r] (by simp) (Nat.succ_le_of_lt ha)⟩

theorem Memory.read_writeWord_outside (m : Memory) {a a' : Nat} (r : Word) (h : a' < a ∨ a + 2 ≤ a') :
    (m.writeWord a r).read a' = m.read a' := Memory.read_writeBytes_outside m _ (by simpa using h)

theorem Memory.wf_writeWord {m : Memory} {a : Nat} (r : Word) (h : m.wf = true) (ha : a + 1 < memSize) :
    (m.writeWord a r).wf = true := Memory.wf_writeBytes _ h (by simp; omega)

/-! ## Range checks (R76, R78) -/

/-- A range is in bounds exactly when it ends inside Memory. -/
theorem firstOutOfBounds_eq_none (a n : Nat) : firstOutOfBounds a n = none ↔ n = 0 ∨ a + n ≤ memSize := by
  rw [firstOutOfBounds, List.find?_eq_none]
  constructor
  · intro h
    by_cases hn : n = 0
    · exact .inl hn
    · have := h (a + (n - 1)) (by rw [List.mem_range'_1]; omega)
      simp only [decide_eq_true_eq] at this
      omega
  · intro h k hk
    rw [List.mem_range'_1] at hk
    simp only [decide_eq_true_eq]
    omega

theorem range'_find?_lowest (a n : Nat) (p : Nat → Bool) (bad : Nat) :
    (List.range' a n).find? p = some bad ↔ a ≤ bad ∧ bad < a + n ∧ p bad = true ∧ ∀ k, a ≤ k → k < bad → p k = false := by
  induction n generalizing a with
  | zero =>
    simp only [List.range'_zero, List.find?_nil, reduceCtorEq, false_iff]
    omega
  | succ n ih =>
    rw [List.range'_succ, List.find?_cons]
    cases hp : p a with
    | true =>
      simp only [Option.some.injEq]
      constructor
      · rintro rfl
        exact ⟨Nat.le_refl _, by omega, hp, fun k h1 h2 => absurd h1 (by omega)⟩
      · rintro ⟨h1, -, -, h4⟩
        by_contra hne
        have := h4 a (Nat.le_refl _) (by omega)
        rw [hp] at this
        exact absurd this (by simp)
    | false =>
      simp only [ih]
      constructor
      · rintro ⟨h1, h2, h3, h4⟩
        refine ⟨by omega, by omega, h3, fun k hk1 hk2 => ?_⟩
        by_cases hka : k = a
        · subst hka; exact hp
        · exact h4 k (by omega) hk2
      · rintro ⟨h1, h2, h3, h4⟩
        have : bad ≠ a := by
          rintro rfl
          rw [hp] at h3
          exact absurd h3 (by simp)
        exact ⟨by omega, by omega, h3, fun k hk1 hk2 => h4 k (by omega) hk2⟩

/-- The reported address is the lowest out of bounds: the start where it is out itself, else the first past Memory. -/
theorem firstOutOfBounds_eq_some (a n bad : Nat) :
    firstOutOfBounds a n = some bad ↔ n ≠ 0 ∧ memSize < a + n ∧ bad = max a memSize := by
  rw [firstOutOfBounds, range'_find?_lowest]
  simp only [decide_eq_true_eq, decide_eq_false_iff_not]
  constructor
  · rintro ⟨h1, h2, h3, h4⟩
    refine ⟨by omega, by omega, ?_⟩
    by_cases ha : memSize ≤ a
    · have := h4 a (Nat.le_refl _)
      omega
    · have := h4 memSize (by omega)
      omega
  · rintro ⟨h1, h2, rfl⟩
    exact ⟨by omega, by omega, by omega, fun k _ _ => by omega⟩

/-- A range misses the glyph table exactly when none of its addresses is in it. -/
theorem firstGlyphAddr_eq_none (a n : Nat) :
    firstGlyphAddr a n = none ↔ ∀ k, a ≤ k → k < a + n → isGlyphAddr k = false := by
  rw [firstGlyphAddr, List.find?_eq_none]
  simp only [List.mem_range'_1, and_imp, Bool.not_eq_true]

/-- The reported glyph address is the lowest of the range in the glyph table. -/
theorem firstGlyphAddr_eq_some (a n bad : Nat) :
    firstGlyphAddr a n = some bad ↔
      a ≤ bad ∧ bad < a + n ∧ isGlyphAddr bad = true ∧ ∀ k, a ≤ k → k < bad → isGlyphAddr k = false := by
  rw [firstGlyphAddr, range'_find?_lowest]

end Sys2Proof.Machine
end

