-- ==== Sys2Proof/Laws/Framebuffer.lean ====
section
/-! SUPPORT. Laws of the framebuffer: toggling a cell, the drawing loop cell by cell, and the cells a sprite covers. -/

namespace Sys2Proof.Machine

theorem Framebuffer.lit_blank (c : Cell) : Framebuffer.blank.lit c = false := by
  simp [Framebuffer.lit, Framebuffer.blank]

theorem Framebuffer.lit_toggle (fb : Framebuffer) (c c' : Cell) :
    (fb.toggle c).lit c' = (fb.lit c' ^^ decide (c' = c)) := by
  obtain ⟨x, y⟩ := c
  obtain ⟨x', y'⟩ := c'
  simp only [Framebuffer.lit, Framebuffer.toggle, Fin.getElem_fin, Vector.getElem_set, Prod.mk.injEq]
  by_cases hy : y = y'
  · subst hy
    by_cases hx : x = x'
    · subst hx; simp
    · have h1 : ¬ x.val = x'.val := fun e => hx (Fin.ext e)
      have h2 : ¬ x' = x := fun e => hx e.symm
      simp [h1, h2]
  · have h1 : ¬ y.val = y'.val := fun e => hy (Fin.ext e)
    have h2 : ¬ y' = y := fun e => hy e.symm
    simp [h1, h2]

/-- Framebuffers that agree on every cell are the same data. -/
theorem Framebuffer.ext_lit {fb fb' : Framebuffer} (h : ∀ c : Cell, fb.lit c = fb'.lit c) : fb = fb' := by
  apply Vector.ext
  intro y hy
  apply Vector.ext
  intro x hx
  exact h (⟨x, hx⟩, ⟨y, hy⟩)

theorem foldl_plot_collision (cells : List Cell) (p : Framebuffer × Bool) (h : cells.Nodup) :
    (cells.foldl plot p).2 = (p.2 || cells.any p.1.lit) := by
  induction cells generalizing p with
  | nil => simp
  | cons c cells ih =>
    simp only [List.nodup_cons] at h
    simp only [List.foldl_cons, ih _ h.2, plot, List.any_cons, Bool.or_assoc]
    congr 2
    rw [Bool.eq_iff_iff]
    simp only [List.any_eq_true, Framebuffer.lit_toggle]
    refine exists_congr fun d => and_congr_right fun hd => ?_
    have : d ≠ c := fun e => h.1 (e ▸ hd)
    simp [this]

theorem foldl_plot_lit (cells : List Cell) (p : Framebuffer × Bool) (h : cells.Nodup) (c : Cell) :
    (cells.foldl plot p).1.lit c = (p.1.lit c ^^ decide (c ∈ cells)) := by
  induction cells generalizing p with
  | nil => simp
  | cons d cells ih =>
    simp only [List.nodup_cons] at h
    simp only [List.foldl_cons, ih _ h.2, plot, Framebuffer.lit_toggle, List.mem_cons]
    by_cases hcd : c = d
    · subst hcd
      simp [h.1]
    · simp [hcd]

/-- R271: the drawing loop toggles exactly the target cells, where no two bits share a target. -/
theorem lit_drawCells (fb : Framebuffer) (cells : List Cell) (h : cells.Nodup) (c : Cell) :
    (drawCells fb cells).1.lit c = (fb.lit c ^^ decide (c ∈ cells)) := foldl_plot_lit cells _ h c

/-- R272: the collision flag tells whether some target cell was lit before. -/
theorem drawCells_collision (fb : Framebuffer) (cells : List Cell) (h : cells.Nodup) :
    (drawCells fb cells).2 = cells.any fb.lit := by
  rw [drawCells, foldl_plot_collision _ _ h, Bool.false_or]

/-! ## The cells of a sprite -/

/-- R273: the target of a sprite bit is the one cell it lands on, if any. -/
theorem spriteTarget_eq_some (edge : DrawEdge) (x y : Nat) (c : Cell) : spriteTarget edge x y = some c ↔ LandsOn edge x y c := by
  obtain ⟨cx, cy⟩ := c
  cases edge with
  | clip =>
    simp only [spriteTarget, LandsOn]
    split
    · simp only [Option.some.injEq, Prod.mk.injEq, Fin.ext_iff]
      omega
    · simp only [reduceCtorEq, false_iff]
      omega
  | wrap =>
    simp only [spriteTarget, LandsOn, Option.some.injEq, Prod.mk.injEq, Fin.ext_iff]
    omega

theorem mem_rowTargets (edge : DrawEdge) (x0 y : Nat) (row : Byte) (c : Cell) :
    c ∈ rowTargets edge x0 y row ↔ ∃ b : Nat, b < 8 ∧ row.getLsbD (7 - b) = true ∧ LandsOn edge (x0 + b) y c := by
  have hm : ∀ b : Nat, b ∈ [0, 1, 2, 3, 4, 5, 6, 7] ↔ b < 8 := by
    intro b
    simp only [List.mem_cons, List.not_mem_nil, or_false]
    omega
  simp only [rowTargets, List.mem_filterMap, hm, Option.ite_none_right_eq_some, spriteTarget_eq_some]

theorem mem_spriteTargets (edge : DrawEdge) (x0 y0 : Nat) (rows : List Byte) (c : Cell) :
    c ∈ spriteTargets edge x0 y0 rows ↔
      ∃ r b : Nat, ∃ h : r < rows.length, b < 8 ∧ rows[r].getLsbD (7 - b) = true ∧ LandsOn edge (x0 + b) (y0 + r) c := by
  induction rows generalizing y0 with
  | nil => simp [spriteTargets]
  | cons row rows ih =>
    simp only [spriteTargets, List.mem_append, mem_rowTargets, ih]
    constructor
    · rintro (⟨b, h1, h2, h3⟩ | ⟨r, b, h, h1, h2, h3⟩)
      · exact ⟨0, b, by simp, h1, h2, h3⟩
      · exact ⟨r + 1, b, by simpa using h, h1, by simpa using h2, by rwa [show y0 + (r + 1) = y0 + 1 + r by omega]⟩
    · rintro ⟨r, b, h, h1, h2, h3⟩
      cases r with
      | zero => exact .inl ⟨b, h1, h2, h3⟩
      | succ r =>
        exact .inr ⟨r, b, by simpa using h, h1, by simpa using h2, by rwa [show y0 + 1 + r = y0 + (r + 1) by omega]⟩

/-- Two sprite bits within 8 columns of each other that land on one cell are the same bit. -/
theorem LandsOn.col_unique {edge : DrawEdge} {x0 b b' y y' : Nat} {c : Cell} (hb : b < 8) (hb' : b' < 8)
    (h : LandsOn edge (x0 + b) y c) (h' : LandsOn edge (x0 + b') y' c) : b = b' := by
  cases edge <;> simp only [LandsOn] at h h' <;> omega

/-- Two sprite bits within 32 rows of each other that land on one cell are in the same row. -/
theorem LandsOn.row_unique {edge : DrawEdge} {x x' y0 r r' : Nat} {c : Cell} (hr : r < 32) (hr' : r' < 32)
    (h : LandsOn edge x (y0 + r) c) (h' : LandsOn edge x' (y0 + r') c) : r = r' := by
  cases edge <;> simp only [LandsOn] at h h' <;> omega

theorem nodup_rowTargets (edge : DrawEdge) (x0 y : Nat) (row : Byte) : (rowTargets edge x0 y row).Nodup := by
  have key : ∀ bs : List Nat, bs.Nodup → (∀ b ∈ bs, b < 8) →
      (bs.filterMap fun b => if row.getLsbD (7 - b) then spriteTarget edge (x0 + b) y else none).Nodup := by
    intro bs hnd hlt
    induction bs with
    | nil => exact List.nodup_nil
    | cons b bs ih =>
      simp only [List.nodup_cons] at hnd
      have htl := ih hnd.2 fun b hb => hlt b (List.mem_cons_of_mem _ hb)
      rw [List.filterMap_cons]
      split
      · exact htl
      · rename_i c hc
        rw [Option.ite_none_right_eq_some, spriteTarget_eq_some] at hc
        rw [List.nodup_cons]
        refine ⟨fun hmem => ?_, htl⟩
        simp only [List.mem_filterMap, Option.ite_none_right_eq_some, spriteTarget_eq_some] at hmem
        obtain ⟨b', hb', -, hl⟩ := hmem
        have := LandsOn.col_unique (hlt b List.mem_cons_self) (hlt b' (List.mem_cons_of_mem _ hb')) hc.2 hl
        exact hnd.1 (this ▸ hb')
  exact key _ (by decide) (by decide)

/-- R272: no two bits of one sprite land on the same cell, under either edge policy. -/
theorem nodup_spriteTargets (edge : DrawEdge) (x0 y0 : Nat) (rows : List Byte) (h : rows.length ≤ 32) :
    (spriteTargets edge x0 y0 rows).Nodup := by
  induction rows generalizing y0 with
  | nil => exact List.nodup_nil
  | cons row rows ih =>
    simp only [List.length_cons] at h
    rw [spriteTargets, List.nodup_append]
    refine ⟨nodup_rowTargets _ _ _ _, ih _ (by omega), ?_⟩
    rintro c hc d hd rfl
    rw [mem_rowTargets] at hc
    rw [mem_spriteTargets] at hd
    obtain ⟨b, -, -, hl⟩ := hc
    obtain ⟨r, b', hr, -, -, hl'⟩ := hd
    have := LandsOn.row_unique (r := 0) (r' := r + 1) (by omega) (by omega) hl (by rwa [show y0 + (r + 1) = y0 + 1 + r by omega])
    omega

/-- The cells DXYN's sprite covers, as the statements name them. -/
theorem mem_spriteTargets_loadThroughI (edge : DrawEdge) (s : State) (x0 y0 n : Nat) (c : Cell) :
    c ∈ spriteTargets edge x0 y0 (s.loadThroughI n) ↔ SpriteCovers edge s x0 y0 n c := by
  simp only [mem_spriteTargets, SpriteCovers, State.loadThroughI, State.ea]
  constructor
  · rintro ⟨r, b, h, h1, h2, h3⟩
    have hr := h
    rw [Memory.length_readBytes] at hr
    rw [Memory.getElem_readBytes] at h2
    exact ⟨r, b, hr, h1, by simpa using h2, h3⟩
  · rintro ⟨r, b, hr, h1, h2, h3⟩
    refine ⟨r, b, by rw [Memory.length_readBytes]; exact hr, h1, ?_, h3⟩
    rw [Memory.getElem_readBytes]
    simpa using h2

end Sys2Proof.Machine
end

