-- ==== Sys2Proof/Laws/PerInstr.lean ====
section
/-! SUPPORT. Laws made per instruction. Family EncodingMatchesTable: the encoder's word has the fixed bits its row of spec/opcode_table.json gives. -/

namespace Sys2Proof.Laws.EncodingMatchesTable

/-- The row's "mask": which bits are fixed. -/
def rowMask : Instr → Word
  | .cls => 0xFFFF
  | .ret => 0xFFFF
  | .sys _ => 0xF000
  | .jp _ => 0xF000
  | .call _ => 0xF000
  | .seImm _ _ => 0xF000
  | .sneImm _ _ => 0xF000
  | .seReg _ _ => 0xF00F
  | .ldImm _ _ => 0xF000
  | .addImm _ _ => 0xF000
  | .movReg _ _ => 0xF00F
  | .orReg _ _ => 0xF00F
  | .andReg _ _ => 0xF00F
  | .xorReg _ _ => 0xF00F
  | .addReg _ _ => 0xF00F
  | .subReg _ _ => 0xF00F
  | .shrReg _ _ => 0xF00F
  | .subnReg _ _ => 0xF00F
  | .shlReg _ _ => 0xF00F
  | .sneReg _ _ => 0xF00F
  | .ldI _ => 0xF000
  | .jpV0 _ => 0xF000
  | .rnd _ _ => 0xF000
  | .drw _ _ _ => 0xF000
  | .skp _ => 0xF0FF
  | .sknp _ => 0xF0FF
  | .ldXDt _ => 0xF0FF
  | .ldXK _ => 0xF0FF
  | .ldDtX _ => 0xF0FF
  | .ldStX _ => 0xF0FF
  | .addIX _ => 0xF0FF
  | .ldFX _ => 0xF0FF
  | .ldBX _ => 0xF0FF
  | .ldMemX _ => 0xF0FF
  | .ldXMem _ => 0xF0FF
  | .halt => 0xF0FF

/-- The row's "match": the values of the fixed bits. -/
def rowMatch : Instr → Word
  | .cls => 0x00E0
  | .ret => 0x00EE
  | .sys _ => 0x0000
  | .jp _ => 0x1000
  | .call _ => 0x2000
  | .seImm _ _ => 0x3000
  | .sneImm _ _ => 0x4000
  | .seReg _ _ => 0x5000
  | .ldImm _ _ => 0x6000
  | .addImm _ _ => 0x7000
  | .movReg _ _ => 0x8000
  | .orReg _ _ => 0x8001
  | .andReg _ _ => 0x8002
  | .xorReg _ _ => 0x8003
  | .addReg _ _ => 0x8004
  | .subReg _ _ => 0x8005
  | .shrReg _ _ => 0x8006
  | .subnReg _ _ => 0x8007
  | .shlReg _ _ => 0x800E
  | .sneReg _ _ => 0x9000
  | .ldI _ => 0xA000
  | .jpV0 _ => 0xB000
  | .rnd _ _ => 0xC000
  | .drw _ _ _ => 0xD000
  | .skp _ => 0xE09E
  | .sknp _ => 0xE0A1
  | .ldXDt _ => 0xF007
  | .ldXK _ => 0xF00A
  | .ldDtX _ => 0xF015
  | .ldStX _ => 0xF018
  | .addIX _ => 0xF01E
  | .ldFX _ => 0xF029
  | .ldBX _ => 0xF033
  | .ldMemX _ => 0xF055
  | .ldXMem _ => 0xF065
  | .halt => 0xF0FF

/-- The encoder's word agrees with the instruction's row on every fixed bit. -/
def Statement (i : Instr) : Prop := encode i &&& rowMask i = rowMatch i

/-! The fixed bits of each layout. -/

theorem and_nibble_ones (c : Nibble) : c &&& 15#4 = c := BitVec.and_allOnes

theorem and_byte_ones (b : Byte) : b &&& 255#8 = b := BitVec.and_allOnes

theorem layoutFA_fixed (c : Nibble) (nnn : Addr12) : layoutFA c nnn &&& 0xF000#16 = layoutFA c 0 := by
  rw [show 0xF000#16 = layoutFA 0xF#4 0#12 by decide, layoutFA, layoutFA, layoutFA, BitVec.and_append]
  simp [and_nibble_ones]

theorem layoutFXI_fixed (c : Nibble) (x : Reg) (nn : Byte) : layoutFXI c x nn &&& 0xF000#16 = layoutFXI c 0 0 := by
  rw [show 0xF000#16 = layoutFXI 0xF#4 0 0 by decide, layoutFXI, layoutFXI, layoutFXI, BitVec.and_append, BitVec.and_append]
  simp [and_nibble_ones, regBits]

theorem layoutFX_fixed (c : Nibble) (x : Reg) (nn : Byte) : layoutFXI c x nn &&& 0xF0FF#16 = layoutFXI c 0 nn := by
  rw [show 0xF0FF#16 = layoutFXI 0xF#4 0 0xFF#8 by decide, layoutFXI, layoutFXI, layoutFXI, BitVec.and_append, BitVec.and_append]
  simp [and_nibble_ones, and_byte_ones, regBits]

theorem layoutFXY_fixed (c : Nibble) (x y : Reg) (n : Nibble) : layoutFXYN c x y n &&& 0xF00F#16 = layoutFXYN c 0 0 n := by
  rw [show 0xF00F#16 = layoutFXYN 0xF#4 0 0 0xF#4 by decide, layoutFXYN, layoutFXYN, layoutFXYN, BitVec.and_append,
    BitVec.and_append, BitVec.and_append]
  simp [and_nibble_ones, regBits]

theorem layoutFXYN_fixed (c : Nibble) (x y : Reg) (n : Nibble) : layoutFXYN c x y n &&& 0xF000#16 = layoutFXYN c 0 0 0 := by
  rw [show 0xF000#16 = layoutFXYN 0xF#4 0 0 0#4 by decide, layoutFXYN, layoutFXYN, layoutFXYN, BitVec.and_append,
    BitVec.and_append, BitVec.and_append]
  simp [and_nibble_ones, regBits]

/-! One lemma per constructor. -/

theorem cls : Statement .cls := by unfold Statement; decide
theorem ret : Statement .ret := by unfold Statement; decide
theorem sys (nnn : Addr12) : Statement (.sys nnn) := (layoutFA_fixed 0x0#4 nnn).trans rfl
theorem jp (nnn : Addr12) : Statement (.jp nnn) := (layoutFA_fixed 0x1#4 nnn).trans rfl
theorem call (nnn : Addr12) : Statement (.call nnn) := (layoutFA_fixed 0x2#4 nnn).trans rfl
theorem seImm (x : Reg) (nn : Byte) : Statement (.seImm x nn) := (layoutFXI_fixed 0x3#4 x nn).trans rfl
theorem sneImm (x : Reg) (nn : Byte) : Statement (.sneImm x nn) := (layoutFXI_fixed 0x4#4 x nn).trans rfl
theorem seReg (x y : Reg) : Statement (.seReg x y) := (layoutFXY_fixed 0x5#4 x y 0x0#4).trans rfl
theorem ldImm (x : Reg) (nn : Byte) : Statement (.ldImm x nn) := (layoutFXI_fixed 0x6#4 x nn).trans rfl
theorem addImm (x : Reg) (nn : Byte) : Statement (.addImm x nn) := (layoutFXI_fixed 0x7#4 x nn).trans rfl
theorem movReg (x y : Reg) : Statement (.movReg x y) := (layoutFXY_fixed 0x8#4 x y 0x0#4).trans rfl
theorem orReg (x y : Reg) : Statement (.orReg x y) := (layoutFXY_fixed 0x8#4 x y 0x1#4).trans rfl
theorem andReg (x y : Reg) : Statement (.andReg x y) := (layoutFXY_fixed 0x8#4 x y 0x2#4).trans rfl
theorem xorReg (x y : Reg) : Statement (.xorReg x y) := (layoutFXY_fixed 0x8#4 x y 0x3#4).trans rfl
theorem addReg (x y : Reg) : Statement (.addReg x y) := (layoutFXY_fixed 0x8#4 x y 0x4#4).trans rfl
theorem subReg (x y : Reg) : Statement (.subReg x y) := (layoutFXY_fixed 0x8#4 x y 0x5#4).trans rfl
theorem shrReg (x y : Reg) : Statement (.shrReg x y) := (layoutFXY_fixed 0x8#4 x y 0x6#4).trans rfl
theorem subnReg (x y : Reg) : Statement (.subnReg x y) := (layoutFXY_fixed 0x8#4 x y 0x7#4).trans rfl
theorem shlReg (x y : Reg) : Statement (.shlReg x y) := (layoutFXY_fixed 0x8#4 x y 0xE#4).trans rfl
theorem sneReg (x y : Reg) : Statement (.sneReg x y) := (layoutFXY_fixed 0x9#4 x y 0x0#4).trans rfl
theorem ldI (nnn : Addr12) : Statement (.ldI nnn) := (layoutFA_fixed 0xA#4 nnn).trans rfl
theorem jpV0 (nnn : Addr12) : Statement (.jpV0 nnn) := (layoutFA_fixed 0xB#4 nnn).trans rfl
theorem rnd (x : Reg) (nn : Byte) : Statement (.rnd x nn) := (layoutFXI_fixed 0xC#4 x nn).trans rfl
theorem drw (x y : Reg) (n : Nibble) : Statement (.drw x y n) := (layoutFXYN_fixed 0xD#4 x y n).trans rfl
theorem skp (x : Reg) : Statement (.skp x) := (layoutFX_fixed 0xE#4 x 0x9E#8).trans rfl
theorem sknp (x : Reg) : Statement (.sknp x) := (layoutFX_fixed 0xE#4 x 0xA1#8).trans rfl
theorem ldXDt (x : Reg) : Statement (.ldXDt x) := (layoutFX_fixed 0xF#4 x 0x07#8).trans rfl
theorem ldXK (x : Reg) : Statement (.ldXK x) := (layoutFX_fixed 0xF#4 x 0x0A#8).trans rfl
theorem ldDtX (x : Reg) : Statement (.ldDtX x) := (layoutFX_fixed 0xF#4 x 0x15#8).trans rfl
theorem ldStX (x : Reg) : Statement (.ldStX x) := (layoutFX_fixed 0xF#4 x 0x18#8).trans rfl
theorem addIX (x : Reg) : Statement (.addIX x) := (layoutFX_fixed 0xF#4 x 0x1E#8).trans rfl
theorem ldFX (x : Reg) : Statement (.ldFX x) := (layoutFX_fixed 0xF#4 x 0x29#8).trans rfl
theorem ldBX (x : Reg) : Statement (.ldBX x) := (layoutFX_fixed 0xF#4 x 0x33#8).trans rfl
theorem ldMemX (x : Reg) : Statement (.ldMemX x) := (layoutFX_fixed 0xF#4 x 0x55#8).trans rfl
theorem ldXMem (x : Reg) : Statement (.ldXMem x) := (layoutFX_fixed 0xF#4 x 0x65#8).trans rfl
theorem halt : Statement .halt := by unfold Statement; decide

end Sys2Proof.Laws.EncodingMatchesTable
end

