-- ==== Sys2Proof/Laws/State.lean ====
section
/-! SUPPORT. One lemma per field per update of State, true by rfl, so that no proof unfolds a record update. -/

namespace Sys2Proof.Machine

/-! ## setReg -/

@[simp] theorem State.setReg_v (s : State) (r : Reg) (b : Byte) : (s.setReg r b).v = s.v.set r b := rfl
@[simp] theorem State.setReg_i (s : State) (r : Reg) (b : Byte) : (s.setReg r b).i = s.i := rfl
@[simp] theorem State.setReg_pc (s : State) (r : Reg) (b : Byte) : (s.setReg r b).pc = s.pc := rfl
@[simp] theorem State.setReg_sp (s : State) (r : Reg) (b : Byte) : (s.setReg r b).sp = s.sp := rfl
@[simp] theorem State.setReg_dt (s : State) (r : Reg) (b : Byte) : (s.setReg r b).dt = s.dt := rfl
@[simp] theorem State.setReg_st (s : State) (r : Reg) (b : Byte) : (s.setReg r b).st = s.st := rfl
@[simp] theorem State.setReg_keys (s : State) (r : Reg) (b : Byte) : (s.setReg r b).keys = s.keys := rfl
@[simp] theorem State.setReg_fb (s : State) (r : Reg) (b : Byte) : (s.setReg r b).fb = s.fb := rfl
@[simp] theorem State.setReg_draw (s : State) (r : Reg) (b : Byte) : (s.setReg r b).draw = s.draw := rfl
@[simp] theorem State.setReg_running (s : State) (r : Reg) (b : Byte) : (s.setReg r b).running = s.running := rfl
@[simp] theorem State.setReg_cycles (s : State) (r : Reg) (b : Byte) : (s.setReg r b).cycles = s.cycles := rfl
@[simp] theorem State.setReg_fault (s : State) (r : Reg) (b : Byte) : (s.setReg r b).fault = s.fault := rfl
@[simp] theorem State.setReg_tone (s : State) (r : Reg) (b : Byte) : (s.setReg r b).tone = s.tone := rfl
@[simp] theorem State.setReg_mem (s : State) (r : Reg) (b : Byte) : (s.setReg r b).mem = s.mem := rfl
@[simp] theorem State.setReg_rndIndex (s : State) (r : Reg) (b : Byte) : (s.setReg r b).rndIndex = s.rndIndex := rfl

/-! ## setRegAndFlag -/

@[simp] theorem State.setRegAndFlag_v (s : State) (r : Reg) (b : Byte) (f : Bool) : (s.setRegAndFlag r b f).v = (s.v.set r b).set VF (flagByte f) := rfl
@[simp] theorem State.setRegAndFlag_i (s : State) (r : Reg) (b : Byte) (f : Bool) : (s.setRegAndFlag r b f).i = s.i := rfl
@[simp] theorem State.setRegAndFlag_pc (s : State) (r : Reg) (b : Byte) (f : Bool) : (s.setRegAndFlag r b f).pc = s.pc := rfl
@[simp] theorem State.setRegAndFlag_sp (s : State) (r : Reg) (b : Byte) (f : Bool) : (s.setRegAndFlag r b f).sp = s.sp := rfl
@[simp] theorem State.setRegAndFlag_dt (s : State) (r : Reg) (b : Byte) (f : Bool) : (s.setRegAndFlag r b f).dt = s.dt := rfl
@[simp] theorem State.setRegAndFlag_st (s : State) (r : Reg) (b : Byte) (f : Bool) : (s.setRegAndFlag r b f).st = s.st := rfl
@[simp] theorem State.setRegAndFlag_keys (s : State) (r : Reg) (b : Byte) (f : Bool) : (s.setRegAndFlag r b f).keys = s.keys := rfl
@[simp] theorem State.setRegAndFlag_fb (s : State) (r : Reg) (b : Byte) (f : Bool) : (s.setRegAndFlag r b f).fb = s.fb := rfl
@[simp] theorem State.setRegAndFlag_draw (s : State) (r : Reg) (b : Byte) (f : Bool) : (s.setRegAndFlag r b f).draw = s.draw := rfl
@[simp] theorem State.setRegAndFlag_running (s : State) (r : Reg) (b : Byte) (f : Bool) : (s.setRegAndFlag r b f).running = s.running := rfl
@[simp] theorem State.setRegAndFlag_cycles (s : State) (r : Reg) (b : Byte) (f : Bool) : (s.setRegAndFlag r b f).cycles = s.cycles := rfl
@[simp] theorem State.setRegAndFlag_fault (s : State) (r : Reg) (b : Byte) (f : Bool) : (s.setRegAndFlag r b f).fault = s.fault := rfl
@[simp] theorem State.setRegAndFlag_tone (s : State) (r : Reg) (b : Byte) (f : Bool) : (s.setRegAndFlag r b f).tone = s.tone := rfl
@[simp] theorem State.setRegAndFlag_mem (s : State) (r : Reg) (b : Byte) (f : Bool) : (s.setRegAndFlag r b f).mem = s.mem := rfl
@[simp] theorem State.setRegAndFlag_rndIndex (s : State) (r : Reg) (b : Byte) (f : Bool) : (s.setRegAndFlag r b f).rndIndex = s.rndIndex := rfl

/-! ## storeThroughI -/

@[simp] theorem State.storeThroughI_v (s : State) (bs : List Byte) : (s.storeThroughI bs).v = s.v := rfl
@[simp] theorem State.storeThroughI_i (s : State) (bs : List Byte) : (s.storeThroughI bs).i = s.i := rfl
@[simp] theorem State.storeThroughI_pc (s : State) (bs : List Byte) : (s.storeThroughI bs).pc = s.pc := rfl
@[simp] theorem State.storeThroughI_sp (s : State) (bs : List Byte) : (s.storeThroughI bs).sp = s.sp := rfl
@[simp] theorem State.storeThroughI_dt (s : State) (bs : List Byte) : (s.storeThroughI bs).dt = s.dt := rfl
@[simp] theorem State.storeThroughI_st (s : State) (bs : List Byte) : (s.storeThroughI bs).st = s.st := rfl
@[simp] theorem State.storeThroughI_keys (s : State) (bs : List Byte) : (s.storeThroughI bs).keys = s.keys := rfl
@[simp] theorem State.storeThroughI_fb (s : State) (bs : List Byte) : (s.storeThroughI bs).fb = s.fb := rfl
@[simp] theorem State.storeThroughI_draw (s : State) (bs : List Byte) : (s.storeThroughI bs).draw = s.draw := rfl
@[simp] theorem State.storeThroughI_running (s : State) (bs : List Byte) : (s.storeThroughI bs).running = s.running := rfl
@[simp] theorem State.storeThroughI_cycles (s : State) (bs : List Byte) : (s.storeThroughI bs).cycles = s.cycles := rfl
@[simp] theorem State.storeThroughI_fault (s : State) (bs : List Byte) : (s.storeThroughI bs).fault = s.fault := rfl
@[simp] theorem State.storeThroughI_tone (s : State) (bs : List Byte) : (s.storeThroughI bs).tone = s.tone := rfl
@[simp] theorem State.storeThroughI_mem (s : State) (bs : List Byte) : (s.storeThroughI bs).mem = s.mem.writeBytes (s.ea 0) bs := rfl
@[simp] theorem State.storeThroughI_rndIndex (s : State) (bs : List Byte) : (s.storeThroughI bs).rndIndex = s.rndIndex := rfl

/-! ## drawRnd -/

@[simp] theorem State.drawRnd_v (s : State) : (s.drawRnd).v = s.v := rfl
@[simp] theorem State.drawRnd_i (s : State) : (s.drawRnd).i = s.i := rfl
@[simp] theorem State.drawRnd_pc (s : State) : (s.drawRnd).pc = s.pc := rfl
@[simp] theorem State.drawRnd_sp (s : State) : (s.drawRnd).sp = s.sp := rfl
@[simp] theorem State.drawRnd_dt (s : State) : (s.drawRnd).dt = s.dt := rfl
@[simp] theorem State.drawRnd_st (s : State) : (s.drawRnd).st = s.st := rfl
@[simp] theorem State.drawRnd_keys (s : State) : (s.drawRnd).keys = s.keys := rfl
@[simp] theorem State.drawRnd_fb (s : State) : (s.drawRnd).fb = s.fb := rfl
@[simp] theorem State.drawRnd_draw (s : State) : (s.drawRnd).draw = s.draw := rfl
@[simp] theorem State.drawRnd_running (s : State) : (s.drawRnd).running = s.running := rfl
@[simp] theorem State.drawRnd_cycles (s : State) : (s.drawRnd).cycles = s.cycles := rfl
@[simp] theorem State.drawRnd_fault (s : State) : (s.drawRnd).fault = s.fault := rfl
@[simp] theorem State.drawRnd_tone (s : State) : (s.drawRnd).tone = s.tone := rfl
@[simp] theorem State.drawRnd_mem (s : State) : (s.drawRnd).mem = s.mem := rfl
@[simp] theorem State.drawRnd_rndIndex (s : State) : (s.drawRnd).rndIndex = s.rndIndex + 1 := rfl

/-! ## loadRegs -/

@[simp] theorem State.loadRegs_v (s : State) (x : Reg) : (s.loadRegs x).v = (regsUpTo x).foldl (fun v (r : Reg) => v.set r (s.mem.read (s.ea r.val))) s.v := rfl
@[simp] theorem State.loadRegs_i (s : State) (x : Reg) : (s.loadRegs x).i = s.i := rfl
@[simp] theorem State.loadRegs_pc (s : State) (x : Reg) : (s.loadRegs x).pc = s.pc := rfl
@[simp] theorem State.loadRegs_sp (s : State) (x : Reg) : (s.loadRegs x).sp = s.sp := rfl
@[simp] theorem State.loadRegs_dt (s : State) (x : Reg) : (s.loadRegs x).dt = s.dt := rfl
@[simp] theorem State.loadRegs_st (s : State) (x : Reg) : (s.loadRegs x).st = s.st := rfl
@[simp] theorem State.loadRegs_keys (s : State) (x : Reg) : (s.loadRegs x).keys = s.keys := rfl
@[simp] theorem State.loadRegs_fb (s : State) (x : Reg) : (s.loadRegs x).fb = s.fb := rfl
@[simp] theorem State.loadRegs_draw (s : State) (x : Reg) : (s.loadRegs x).draw = s.draw := rfl
@[simp] theorem State.loadRegs_running (s : State) (x : Reg) : (s.loadRegs x).running = s.running := rfl
@[simp] theorem State.loadRegs_cycles (s : State) (x : Reg) : (s.loadRegs x).cycles = s.cycles := rfl
@[simp] theorem State.loadRegs_fault (s : State) (x : Reg) : (s.loadRegs x).fault = s.fault := rfl
@[simp] theorem State.loadRegs_tone (s : State) (x : Reg) : (s.loadRegs x).tone = s.tone := rfl
@[simp] theorem State.loadRegs_mem (s : State) (x : Reg) : (s.loadRegs x).mem = s.mem := rfl
@[simp] theorem State.loadRegs_rndIndex (s : State) (x : Reg) : (s.loadRegs x).rndIndex = s.rndIndex := rfl

/-! ## drawSprite -/

@[simp] theorem State.drawSprite_v (s : State) (e : DrawEdge) (x y : Reg) (rows : List Byte) : (s.drawSprite e x y rows).v = s.v.set VF (flagByte (drawCells s.fb (spriteTargets e (s.reg x).toNat (s.reg y).toNat rows)).2) := rfl
@[simp] theorem State.drawSprite_i (s : State) (e : DrawEdge) (x y : Reg) (rows : List Byte) : (s.drawSprite e x y rows).i = s.i := rfl
@[simp] theorem State.drawSprite_pc (s : State) (e : DrawEdge) (x y : Reg) (rows : List Byte) : (s.drawSprite e x y rows).pc = s.pc := rfl
@[simp] theorem State.drawSprite_sp (s : State) (e : DrawEdge) (x y : Reg) (rows : List Byte) : (s.drawSprite e x y rows).sp = s.sp := rfl
@[simp] theorem State.drawSprite_dt (s : State) (e : DrawEdge) (x y : Reg) (rows : List Byte) : (s.drawSprite e x y rows).dt = s.dt := rfl
@[simp] theorem State.drawSprite_st (s : State) (e : DrawEdge) (x y : Reg) (rows : List Byte) : (s.drawSprite e x y rows).st = s.st := rfl
@[simp] theorem State.drawSprite_keys (s : State) (e : DrawEdge) (x y : Reg) (rows : List Byte) : (s.drawSprite e x y rows).keys = s.keys := rfl
@[simp] theorem State.drawSprite_fb (s : State) (e : DrawEdge) (x y : Reg) (rows : List Byte) : (s.drawSprite e x y rows).fb = (drawCells s.fb (spriteTargets e (s.reg x).toNat (s.reg y).toNat rows)).1 := rfl
@[simp] theorem State.drawSprite_draw (s : State) (e : DrawEdge) (x y : Reg) (rows : List Byte) : (s.drawSprite e x y rows).draw = true := rfl
@[simp] theorem State.drawSprite_running (s : State) (e : DrawEdge) (x y : Reg) (rows : List Byte) : (s.drawSprite e x y rows).running = s.running := rfl
@[simp] theorem State.drawSprite_cycles (s : State) (e : DrawEdge) (x y : Reg) (rows : List Byte) : (s.drawSprite e x y rows).cycles = s.cycles := rfl
@[simp] theorem State.drawSprite_fault (s : State) (e : DrawEdge) (x y : Reg) (rows : List Byte) : (s.drawSprite e x y rows).fault = s.fault := rfl
@[simp] theorem State.drawSprite_tone (s : State) (e : DrawEdge) (x y : Reg) (rows : List Byte) : (s.drawSprite e x y rows).tone = s.tone := rfl
@[simp] theorem State.drawSprite_mem (s : State) (e : DrawEdge) (x y : Reg) (rows : List Byte) : (s.drawSprite e x y rows).mem = s.mem := rfl
@[simp] theorem State.drawSprite_rndIndex (s : State) (e : DrawEdge) (x y : Reg) (rows : List Byte) : (s.drawSprite e x y rows).rndIndex = s.rndIndex := rfl

/-! ## takeFault -/

@[simp] theorem State.takeFault_v (s : State) (f : Fault) : (s.takeFault f).v = s.v := rfl
@[simp] theorem State.takeFault_i (s : State) (f : Fault) : (s.takeFault f).i = s.i := rfl
@[simp] theorem State.takeFault_pc (s : State) (f : Fault) : (s.takeFault f).pc = s.pc := rfl
@[simp] theorem State.takeFault_sp (s : State) (f : Fault) : (s.takeFault f).sp = s.sp := rfl
@[simp] theorem State.takeFault_dt (s : State) (f : Fault) : (s.takeFault f).dt = s.dt := rfl
@[simp] theorem State.takeFault_st (s : State) (f : Fault) : (s.takeFault f).st = s.st := rfl
@[simp] theorem State.takeFault_keys (s : State) (f : Fault) : (s.takeFault f).keys = s.keys := rfl
@[simp] theorem State.takeFault_fb (s : State) (f : Fault) : (s.takeFault f).fb = s.fb := rfl
@[simp] theorem State.takeFault_draw (s : State) (f : Fault) : (s.takeFault f).draw = s.draw := rfl
@[simp] theorem State.takeFault_running (s : State) (f : Fault) : (s.takeFault f).running = false := rfl
@[simp] theorem State.takeFault_cycles (s : State) (f : Fault) : (s.takeFault f).cycles = s.cycles := rfl
@[simp] theorem State.takeFault_fault (s : State) (f : Fault) : (s.takeFault f).fault = some f := rfl
@[simp] theorem State.takeFault_tone (s : State) (f : Fault) : (s.takeFault f).tone = s.tone := rfl
@[simp] theorem State.takeFault_mem (s : State) (f : Fault) : (s.takeFault f).mem = s.mem := rfl
@[simp] theorem State.takeFault_rndIndex (s : State) (f : Fault) : (s.takeFault f).rndIndex = s.rndIndex := rfl

/-! ## hostReset -/

@[simp] theorem State.hostReset_v (s : State) : (s.hostReset).v = Vector.replicate 16 0 := rfl
@[simp] theorem State.hostReset_i (s : State) : (s.hostReset).i = 0 := rfl
@[simp] theorem State.hostReset_pc (s : State) : (s.hostReset).pc = BitVec.ofNat 16 progOffset := rfl
@[simp] theorem State.hostReset_sp (s : State) : (s.hostReset).sp = 0 := rfl
@[simp] theorem State.hostReset_dt (s : State) : (s.hostReset).dt = 0 := rfl
@[simp] theorem State.hostReset_st (s : State) : (s.hostReset).st = 0 := rfl
@[simp] theorem State.hostReset_keys (s : State) : (s.hostReset).keys = s.keys := rfl
@[simp] theorem State.hostReset_fb (s : State) : (s.hostReset).fb = s.fb := rfl
@[simp] theorem State.hostReset_draw (s : State) : (s.hostReset).draw = s.draw := rfl
@[simp] theorem State.hostReset_running (s : State) : (s.hostReset).running = true := rfl
@[simp] theorem State.hostReset_cycles (s : State) : (s.hostReset).cycles = s.cycles := rfl
@[simp] theorem State.hostReset_fault (s : State) : (s.hostReset).fault = none := rfl
@[simp] theorem State.hostReset_tone (s : State) : (s.hostReset).tone = s.tone := rfl
@[simp] theorem State.hostReset_mem (s : State) : (s.hostReset).mem = s.mem := rfl
@[simp] theorem State.hostReset_rndIndex (s : State) : (s.hostReset).rndIndex = s.rndIndex := rfl

/-! ## keyDown -/

@[simp] theorem State.keyDown_v (s : State) (k : Key) : (s.keyDown k).v = s.v := rfl
@[simp] theorem State.keyDown_i (s : State) (k : Key) : (s.keyDown k).i = s.i := rfl
@[simp] theorem State.keyDown_pc (s : State) (k : Key) : (s.keyDown k).pc = s.pc := rfl
@[simp] theorem State.keyDown_sp (s : State) (k : Key) : (s.keyDown k).sp = s.sp := rfl
@[simp] theorem State.keyDown_dt (s : State) (k : Key) : (s.keyDown k).dt = s.dt := rfl
@[simp] theorem State.keyDown_st (s : State) (k : Key) : (s.keyDown k).st = s.st := rfl
@[simp] theorem State.keyDown_keys (s : State) (k : Key) : (s.keyDown k).keys = s.keys ||| BitVec.twoPow 16 k := rfl
@[simp] theorem State.keyDown_fb (s : State) (k : Key) : (s.keyDown k).fb = s.fb := rfl
@[simp] theorem State.keyDown_draw (s : State) (k : Key) : (s.keyDown k).draw = s.draw := rfl
@[simp] theorem State.keyDown_running (s : State) (k : Key) : (s.keyDown k).running = s.running := rfl
@[simp] theorem State.keyDown_cycles (s : State) (k : Key) : (s.keyDown k).cycles = s.cycles := rfl
@[simp] theorem State.keyDown_fault (s : State) (k : Key) : (s.keyDown k).fault = s.fault := rfl
@[simp] theorem State.keyDown_tone (s : State) (k : Key) : (s.keyDown k).tone = s.tone := rfl
@[simp] theorem State.keyDown_mem (s : State) (k : Key) : (s.keyDown k).mem = s.mem := rfl
@[simp] theorem State.keyDown_rndIndex (s : State) (k : Key) : (s.keyDown k).rndIndex = s.rndIndex := rfl

/-! ## keyUp -/

@[simp] theorem State.keyUp_v (s : State) (k : Key) : (s.keyUp k).v = s.v := rfl
@[simp] theorem State.keyUp_i (s : State) (k : Key) : (s.keyUp k).i = s.i := rfl
@[simp] theorem State.keyUp_pc (s : State) (k : Key) : (s.keyUp k).pc = s.pc := rfl
@[simp] theorem State.keyUp_sp (s : State) (k : Key) : (s.keyUp k).sp = s.sp := rfl
@[simp] theorem State.keyUp_dt (s : State) (k : Key) : (s.keyUp k).dt = s.dt := rfl
@[simp] theorem State.keyUp_st (s : State) (k : Key) : (s.keyUp k).st = s.st := rfl
@[simp] theorem State.keyUp_keys (s : State) (k : Key) : (s.keyUp k).keys = s.keys &&& ~~~BitVec.twoPow 16 k := rfl
@[simp] theorem State.keyUp_fb (s : State) (k : Key) : (s.keyUp k).fb = s.fb := rfl
@[simp] theorem State.keyUp_draw (s : State) (k : Key) : (s.keyUp k).draw = s.draw := rfl
@[simp] theorem State.keyUp_running (s : State) (k : Key) : (s.keyUp k).running = s.running := rfl
@[simp] theorem State.keyUp_cycles (s : State) (k : Key) : (s.keyUp k).cycles = s.cycles := rfl
@[simp] theorem State.keyUp_fault (s : State) (k : Key) : (s.keyUp k).fault = s.fault := rfl
@[simp] theorem State.keyUp_tone (s : State) (k : Key) : (s.keyUp k).tone = s.tone := rfl
@[simp] theorem State.keyUp_mem (s : State) (k : Key) : (s.keyUp k).mem = s.mem := rfl
@[simp] theorem State.keyUp_rndIndex (s : State) (k : Key) : (s.keyUp k).rndIndex = s.rndIndex := rfl

/-! ## decTimers -/

@[simp] theorem State.decTimers_v (s : State) : (s.decTimers).v = s.v := rfl
@[simp] theorem State.decTimers_i (s : State) : (s.decTimers).i = s.i := rfl
@[simp] theorem State.decTimers_pc (s : State) : (s.decTimers).pc = s.pc := rfl
@[simp] theorem State.decTimers_sp (s : State) : (s.decTimers).sp = s.sp := rfl
@[simp] theorem State.decTimers_dt (s : State) : (s.decTimers).dt = tick s.dt := rfl
@[simp] theorem State.decTimers_st (s : State) : (s.decTimers).st = tick s.st := rfl
@[simp] theorem State.decTimers_keys (s : State) : (s.decTimers).keys = s.keys := rfl
@[simp] theorem State.decTimers_fb (s : State) : (s.decTimers).fb = s.fb := rfl
@[simp] theorem State.decTimers_draw (s : State) : (s.decTimers).draw = s.draw := rfl
@[simp] theorem State.decTimers_running (s : State) : (s.decTimers).running = s.running := rfl
@[simp] theorem State.decTimers_cycles (s : State) : (s.decTimers).cycles = s.cycles := rfl
@[simp] theorem State.decTimers_fault (s : State) : (s.decTimers).fault = s.fault := rfl
@[simp] theorem State.decTimers_tone (s : State) : (s.decTimers).tone = (s.st == 1) := rfl
@[simp] theorem State.decTimers_mem (s : State) : (s.decTimers).mem = s.mem := rfl
@[simp] theorem State.decTimers_rndIndex (s : State) : (s.decTimers).rndIndex = s.rndIndex := rfl

/-! ## clearDraw -/

@[simp] theorem State.clearDraw_v (s : State) : (s.clearDraw).v = s.v := rfl
@[simp] theorem State.clearDraw_i (s : State) : (s.clearDraw).i = s.i := rfl
@[simp] theorem State.clearDraw_pc (s : State) : (s.clearDraw).pc = s.pc := rfl
@[simp] theorem State.clearDraw_sp (s : State) : (s.clearDraw).sp = s.sp := rfl
@[simp] theorem State.clearDraw_dt (s : State) : (s.clearDraw).dt = s.dt := rfl
@[simp] theorem State.clearDraw_st (s : State) : (s.clearDraw).st = s.st := rfl
@[simp] theorem State.clearDraw_keys (s : State) : (s.clearDraw).keys = s.keys := rfl
@[simp] theorem State.clearDraw_fb (s : State) : (s.clearDraw).fb = s.fb := rfl
@[simp] theorem State.clearDraw_draw (s : State) : (s.clearDraw).draw = false := rfl
@[simp] theorem State.clearDraw_running (s : State) : (s.clearDraw).running = s.running := rfl
@[simp] theorem State.clearDraw_cycles (s : State) : (s.clearDraw).cycles = s.cycles := rfl
@[simp] theorem State.clearDraw_fault (s : State) : (s.clearDraw).fault = s.fault := rfl
@[simp] theorem State.clearDraw_tone (s : State) : (s.clearDraw).tone = s.tone := rfl
@[simp] theorem State.clearDraw_mem (s : State) : (s.clearDraw).mem = s.mem := rfl
@[simp] theorem State.clearDraw_rndIndex (s : State) : (s.clearDraw).rndIndex = s.rndIndex := rfl

end Sys2Proof.Machine
end

