-- ==== Sys2Proof/Laws/Registers.lean ====
section
/-! SUPPORT. Laws of the general registers, the flag writes, the register transfers and the input latch. -/

namespace Sys2Proof.Machine

/-- Every register name is one of the sixteen. -/
theorem mem_allRegs (r : Reg) : r ∈ allRegs := by
  revert r; decide

theorem mem_regsUpTo (r x : Reg) : r ∈ regsUpTo x ↔ r ≤ x := by
  simp [regsUpTo, mem_allRegs]

theorem nodup_regsUpTo (x : Reg) : (regsUpTo x).Nodup := List.Nodup.filter _ (by decide)

/-- The registers `V0..VX` are `X+1` in number, and the `j`-th of them is `Vj`. -/
theorem regsUpTo_length (x : Reg) : (regsUpTo x).length = x.val + 1 := by
  revert x; decide

theorem regsUpTo_getElem (x : Reg) (j : Nat) (h : j < (regsUpTo x).length) : ((regsUpTo x)[j]).val = j := by
  rw [regsUpTo_length] at h
  have key : ∀ x : Reg, ∀ j : Fin 16, j ≤ x → ((regsUpTo x)[j.val]?).map Fin.val = some j.val := by decide
  have hj := key x ⟨j, by omega⟩ (by rw [Fin.le_def]; simp only; omega)
  rw [List.getElem?_eq_getElem (by rw [regsUpTo_length]; exact h)] at hj
  simpa using hj

/-- A write to one register is what it then holds, and leaves the others alone. -/
theorem State.reg_setReg (s : State) (r r' : Reg) (b : Byte) : (s.setReg r b).reg r' = if r' = r then b else s.reg r' := by
  simp only [State.reg, State.setReg_v, Fin.getElem_fin, Vector.getElem_set, ← Fin.ext_iff, eq_comm]

/-- R200: the flag is final, then the result, then the rest is as before. -/
theorem State.reg_setRegAndFlag (s : State) (r r' : Reg) (b : Byte) (f : Bool) :
    (s.setRegAndFlag r b f).reg r' = if r' = VF then flagByte f else if r' = r then b else s.reg r' := by
  rw [State.setRegAndFlag, State.reg_setReg, State.reg_setReg]

/-- Registers are read from the field `v` alone. -/
theorem State.reg_congr {s t : State} (h : t.v = s.v) (r : Reg) : t.reg r = s.reg r := by
  simp only [State.reg, h]

theorem foldl_set_getElem (rs : List Reg) (g : Reg → Byte) (v : Vector Byte 16) (r : Reg) (hnd : rs.Nodup) :
    (rs.foldl (fun v (r : Reg) => v.set r (g r)) v)[r] = if r ∈ rs then g r else v[r] := by
  induction rs generalizing v with
  | nil => simp
  | cons q rs ih =>
    simp only [List.nodup_cons] at hnd
    simp only [List.foldl_cons, ih _ hnd.2, List.mem_cons]
    by_cases hrq : r = q
    · subst hrq
      simp [hnd.1]
    · have : ¬ q.val = r.val := fun e => hrq (Fin.ext e.symm)
      simp [hrq, this]

/-- R249: FX65 loads `V[r]` from `I + r` for each `r` up to X and leaves the others alone. -/
theorem State.reg_loadRegs (s : State) (x r : Reg) :
    (s.loadRegs x).reg r = if r ≤ x then s.mem.read (s.ea r.val) else s.reg r := by
  simp only [State.reg, State.loadRegs_v]
  rw [foldl_set_getElem _ (fun r => s.mem.read (s.ea r.val)) _ _ (nodup_regsUpTo x)]
  simp only [mem_regsUpTo]

theorem State.length_dumpBytes (s : State) (x : Reg) : (s.dumpBytes x).length = x.val + 1 := by
  simp [State.dumpBytes, regsUpTo_length]

/-- R248: byte `j` of what FX55 stores is `V[j]`. -/
theorem State.getElem_dumpBytes (s : State) (x : Reg) (j : Nat) (h : j < (s.dumpBytes x).length) (hj : j < 16) :
    (s.dumpBytes x)[j] = s.reg ⟨j, hj⟩ := by
  simp only [State.dumpBytes, List.getElem_map]
  congr 1
  exact Fin.ext (regsUpTo_getElem x j _)

/-! ## Flags -/

theorem flagByte_eq_one (f : Bool) : flagByte f = 1 ↔ f = true := by cases f <;> decide

/-! ## The input latch -/

theorem getElem_allKeys (j : Nat) (h : j < allKeys.length) : allKeys[j] = ⟨j, h⟩ := by
  have key : ∀ i : Fin 16, allKeys[i.val]? = some i := by decide
  have := key ⟨j, h⟩
  rw [List.getElem?_eq_getElem h] at this
  exact Option.some.inj this

/-- R291, R292: the key FX0A takes is held, and no lower one is. -/
theorem State.lowestKey_eq_some (s : State) (k : Key) :
    s.lowestKey = some k ↔ s.keyHeld k = true ∧ ∀ j : Key, j < k → s.keyHeld j = false := by
  rw [State.lowestKey, List.find?_eq_some_iff_getElem]
  constructor
  · rintro ⟨hp, i, hi, he, hlt⟩
    rw [getElem_allKeys] at he
    subst he
    refine ⟨hp, fun j hj => ?_⟩
    have := hlt j.val hj
    rw [getElem_allKeys] at this
    simpa using this
  · rintro ⟨hp, hlt⟩
    refine ⟨hp, k.val, k.isLt, getElem_allKeys _ _, fun j hj => ?_⟩
    rw [getElem_allKeys]
    simpa using hlt ⟨j, by omega⟩ hj

/-- R291: no key is found exactly when the latch is 0. -/
theorem State.lowestKey_eq_none (s : State) : s.lowestKey = none ↔ s.keys = 0 := by
  rw [State.lowestKey, List.find?_eq_none]
  constructor
  · intro h
    apply BitVec.eq_of_getLsbD_eq
    intro i hi
    have hm : ∀ k : Key, k ∈ allKeys := by decide
    have := h ⟨i, hi⟩ (hm _)
    simpa [State.keyHeld] using this
  · intro h k _
    simp [State.keyHeld, h]

theorem keyByte_toNat (k : Key) : (keyByte k).toNat = k.val := by
  revert k; decide

theorem State.keyHeld_keyDown (s : State) (k j : Key) : (s.keyDown k).keyHeld j = (s.keyHeld j || decide (j = k)) := by
  simp only [State.keyHeld, State.keyDown_keys, BitVec.getLsbD_or, BitVec.getLsbD_twoPow]
  congr 1
  have : (j : Nat) < 16 := j.isLt
  have hk : (k : Nat) < 16 := k.isLt
  by_cases h : j = k
  · subst h; simp [hk]
  · have : ¬ (k : Nat) = j := fun e => h (Fin.ext e.symm)
    simp [h, this]

theorem State.keyHeld_keyUp (s : State) (k j : Key) : (s.keyUp k).keyHeld j = (s.keyHeld j && decide (j ≠ k)) := by
  simp only [State.keyHeld, State.keyUp_keys, BitVec.getLsbD_and, BitVec.getLsbD_not, BitVec.getLsbD_twoPow]
  congr 1
  have hj : (j : Nat) < 16 := j.isLt
  have hk : (k : Nat) < 16 := k.isLt
  by_cases h : j = k
  · subst h; simp [hk]
  · have : ¬ (k : Nat) = j := fun e => h (Fin.ext e.symm)
    simp [h, this, hj]

end Sys2Proof.Machine
end

