-- ==== Sys2Proof/Laws/Step.lean ====
section
/-! SUPPORT. What a step can do, said once: inversion lemmas of the commit, the checks, exec and step. Later proofs cite these instead of unfolding the step. -/

namespace Sys2Proof.Machine

/-! ## The commit -/

/-- The state a commit leaves (R145). -/
def commitState (u : State) (n : Nat) : State := { u with pc := BitVec.ofNat 16 n, cycles := u.cycles + 1 }

theorem finish_writes_of_lt (s u : State) {n : Nat} (h : n < memSize) : finish s (.writes u n) = .next (commitState u n) := by
  simp only [finish, if_pos h, commitState]

theorem finish_writes_of_ge (s u : State) {n : Nat} (h : memSize ≤ n) :
    finish s (.writes u n) = faultAt s (.memory .pcOutOfRange) n := by
  simp only [finish, if_neg (Nat.not_lt.mpr h), raiseFault, faultAt]

theorem finish_raises (s : State) (c : FaultCause) (a : Nat) : finish s (.raises c a) = faultAt s c a := rfl

/-- A commit answers next exactly with the writes, at a `next_pc` inside Memory. -/
theorem finish_eq_next {s t : State} {e : Effect} :
    finish s e = .next t ↔ ∃ u n, e = .writes u n ∧ n < memSize ∧ t = commitState u n := by
  cases e with
  | raises c a => simp [finish, raiseFault]
  | writes u n =>
    by_cases h : n < memSize
    · rw [finish_writes_of_lt s u h]
      constructor
      · intro e
        cases e
        exact ⟨u, n, rfl, h, rfl⟩
      · rintro ⟨u', n', e, -, rfl⟩
        cases e
        rfl
    · rw [finish_writes_of_ge s u (Nat.not_lt.mp h)]
      constructor
      · intro e; cases e
      · rintro ⟨u', n', e, h', -⟩
        cases e
        exact absurd h' h

/-- A commit never refuses. -/
theorem finish_ne_refused (s : State) (e : Effect) (r : Refusal) : finish s e ≠ .refused r := by
  cases e with
  | raises c a => simp [finish, raiseFault]
  | writes u n =>
    simp only [finish]
    split <;> simp [raiseFault]

/-- A fault a commit gives is recorded at the state before the step. -/
theorem finish_eq_fault {s : State} {e : Effect} {f : Fault} (h : finish s e = .fault f) :
    ∃ c a, f = .raised c s.pc s.fetchWord a := by
  cases e with
  | raises c a =>
    simp only [finish, raiseFault, Host.Outcome.fault.injEq] at h
    exact ⟨c, a, h.symm⟩
  | writes u n =>
    simp only [finish, raiseFault] at h
    split at h
    · cases h
    · simp only [Host.Outcome.fault.injEq] at h
      exact ⟨_, _, h.symm⟩

@[simp] theorem commitState_v (u : State) (n : Nat) : (commitState u n).v = u.v := rfl
@[simp] theorem commitState_i (u : State) (n : Nat) : (commitState u n).i = u.i := rfl
@[simp] theorem commitState_pc (u : State) (n : Nat) : (commitState u n).pc = BitVec.ofNat 16 n := rfl
@[simp] theorem commitState_sp (u : State) (n : Nat) : (commitState u n).sp = u.sp := rfl
@[simp] theorem commitState_dt (u : State) (n : Nat) : (commitState u n).dt = u.dt := rfl
@[simp] theorem commitState_st (u : State) (n : Nat) : (commitState u n).st = u.st := rfl
@[simp] theorem commitState_keys (u : State) (n : Nat) : (commitState u n).keys = u.keys := rfl
@[simp] theorem commitState_fb (u : State) (n : Nat) : (commitState u n).fb = u.fb := rfl
@[simp] theorem commitState_draw (u : State) (n : Nat) : (commitState u n).draw = u.draw := rfl
@[simp] theorem commitState_running (u : State) (n : Nat) : (commitState u n).running = u.running := rfl
@[simp] theorem commitState_cycles (u : State) (n : Nat) : (commitState u n).cycles = u.cycles + 1 := rfl
@[simp] theorem commitState_fault (u : State) (n : Nat) : (commitState u n).fault = u.fault := rfl
@[simp] theorem commitState_tone (u : State) (n : Nat) : (commitState u n).tone = u.tone := rfl
@[simp] theorem commitState_mem (u : State) (n : Nat) : (commitState u n).mem = u.mem := rfl
@[simp] theorem commitState_rndIndex (u : State) (n : Nat) : (commitState u n).rndIndex = u.rndIndex := rfl

theorem commitState_reg (u : State) (n : Nat) (r : Reg) : (commitState u n).reg r = u.reg r := rfl

theorem commitState_pc_toNat (u : State) {n : Nat} (h : n < memSize) : (commitState u n).pc.toNat = n := by
  simp only [commitState_pc, BitVec.toNat_ofNat]
  exact Nat.mod_eq_of_lt (by simp only [memSize] at h; omega)

/-! ## The checks -/

theorem checkBounds_eq_writes {a n : Nat} {k : Effect} {u : State} {m : Nat} :
    checkBounds a n k = .writes u m ↔ (n = 0 ∨ a + n ≤ memSize) ∧ k = .writes u m := by
  rw [checkBounds, ← firstOutOfBounds_eq_none]
  split <;> simp_all

theorem checkBounds_of_inBounds {a n : Nat} (k : Effect) (h : n = 0 ∨ a + n ≤ memSize) : checkBounds a n k = k := by
  rw [checkBounds, (firstOutOfBounds_eq_none a n).mpr h]

theorem checkBounds_of_outOfBounds {a n : Nat} (k : Effect) (hn : n ≠ 0) (h : memSize < a + n) :
    checkBounds a n k = .raises (.memory .outOfBounds) (max a memSize) := by
  rw [checkBounds, (firstOutOfBounds_eq_some a n _).mpr ⟨hn, h, rfl⟩]

theorem checkGlyph_eq_writes {a n : Nat} {k : Effect} {u : State} {m : Nat} :
    checkGlyph a n k = .writes u m ↔ (∀ j, a ≤ j → j < a + n → isGlyphAddr j = false) ∧ k = .writes u m := by
  rw [checkGlyph, ← firstGlyphAddr_eq_none]
  split <;> simp_all

theorem checkGlyph_of_clear {a n : Nat} (k : Effect) (h : ∀ j, a ≤ j → j < a + n → isGlyphAddr j = false) :
    checkGlyph a n k = k := by
  rw [checkGlyph, (firstGlyphAddr_eq_none a n).mpr h]

theorem checkGlyph_of_hit {a n bad : Nat} (k : Effect) (h1 : a ≤ bad) (h2 : bad < a + n) (h3 : isGlyphAddr bad = true)
    (h4 : ∀ j, a ≤ j → j < bad → isGlyphAddr j = false) : checkGlyph a n k = .raises (.memory .glyphWrite) bad := by
  rw [checkGlyph, (firstGlyphAddr_eq_some a n bad).mpr ⟨h1, h2, h3, h4⟩]

theorem incIndex_eq_writes {s t u : State} {n m : Nat} :
    incIndex s t n = .writes u m ↔
      s.i.toNat + n ≤ 0xFFFF ∧ u = { t with i := BitVec.ofNat 16 (s.i.toNat + n) } ∧ m = s.pcPlus2 := by
  rw [incIndex]
  split
  · simp only [reduceCtorEq, false_iff]
    omega
  · simp only [fallThrough, Effect.writes.injEq]
    constructor
    · rintro ⟨h1, h2⟩; exact ⟨by omega, h1.symm, h2.symm⟩
    · rintro ⟨-, h1, h2⟩; exact ⟨h1.symm, h2.symm⟩

/-! ## What each shared operation can do -/

theorem fallThrough_eq_writes {s t u : State} {n : Nat} : fallThrough s t = .writes u n ↔ u = t ∧ n = s.pcPlus2 := by
  simp only [fallThrough, Effect.writes.injEq, eq_comm]

/-- R160: a push that succeeds writes one stack slot and moves SP up by 2. -/
theorem pushAndGo_eq_writes {s u : State} {r : Word} {target n : Nat} :
    pushAndGo s r target = .writes u n ↔ s.sp.toNat ≠ 2 * stackDepth ∧
      u = { s with mem := s.mem.writeWord s.stackTop r, sp := s.sp + 2 } ∧ n = target := by
  rw [pushAndGo]
  split
  · simp_all
  · simp_all only [Effect.writes.injEq, ne_eq, not_false_eq_true, true_and, eq_comm]

/-- R160: a pop that succeeds moves SP down by 2 and gives the word it uncovers. -/
theorem popAndGo_eq_writes {s u : State} {n : Nat} :
    popAndGo s = .writes u n ↔ s.sp.toNat ≠ 0 ∧ u = { s with sp := s.sp - 2 } ∧ n = (s.mem.readWord (s.stackTop - 2)).toNat := by
  rw [popAndGo]
  split
  · simp_all
  · simp_all only [Effect.writes.injEq, ne_eq, not_false_eq_true, true_and, eq_comm]

/-- A stack slot lies inside Memory, whatever SP holds. -/
theorem State.stackTop_lt (s : State) : s.stackTop + 1 < memSize := by
  have := s.sp.isLt
  simp only [State.stackTop, stackBase, memSize]
  omega

/-- R180: a skip writes nothing. -/
theorem skipIf_eq_writes {s u : State} {c : Bool} {n : Nat} :
    skipIf s c = .writes u n ↔ u = s ∧ n = s.pc.toNat + (if c then 4 else 2) := by
  cases c <;> simp only [skipIf, State.pcPlus2, Effect.writes.injEq, if_true, Bool.false_eq_true, if_false, eq_comm]

theorem State.keyOperand_eq_some {s : State} {x : Reg} {k : Key} : s.keyOperand x = some k ↔ (s.reg x).toNat = k.val := by
  rw [State.keyOperand]
  split
  · rw [Option.some.injEq, Fin.ext_iff]
  · simp only [reduceCtorEq, false_iff]
    omega

theorem State.keyOperand_eq_none {s : State} {x : Reg} : s.keyOperand x = none ↔ 15 < (s.reg x).toNat := by
  rw [State.keyOperand]
  split
  · simp only [reduceCtorEq, false_iff]
    omega
  · simp only [true_iff]
    omega

/-- R185 to R187: a key skip that succeeds writes nothing. -/
theorem skipOnKey_eq_writes {s u : State} {x : Reg} {c : Bool → Bool} {n : Nat} :
    skipOnKey s x c = .writes u n ↔ ∃ k : Key, (s.reg x).toNat = k.val ∧ u = s ∧
      n = s.pc.toNat + (if c (s.keyHeld k) then 4 else 2) := by
  simp only [skipOnKey, ← State.keyOperand_eq_some]
  split
  · rename_i k hk
    rw [skipIf_eq_writes]
    simp [hk]
  · simp_all

/-- R291, R149: the key wait either stays where it is or loads the lowest key held. -/
theorem waitForKey_eq_writes {s u : State} {x : Reg} {n : Nat} :
    waitForKey x s = .writes u n ↔ (s.lowestKey = none ∧ u = s ∧ n = s.pc.toNat) ∨
      ∃ k, s.lowestKey = some k ∧ u = s.setReg x (keyByte k) ∧ n = s.pcPlus2 := by
  simp only [waitForKey]
  split
  · rename_i h
    simp [h, eq_comm]
  · rename_i k h
    simp [h, fallThrough, eq_comm]

/-- R245: the glyph pointer. -/
theorem pointAtGlyph_eq_writes {s u : State} {x : Reg} {n : Nat} :
    pointAtGlyph x s = .writes u n ↔ (s.reg x).toNat < glyphCount ∧
      u = { s with i := BitVec.ofNat 16 (glyphBase + glyphBytes * (s.reg x).toNat) } ∧ n = s.pcPlus2 := by
  simp only [pointAtGlyph, State.glyphOperand]
  by_cases h : (s.reg x).toNat < glyphCount
  · simp only [h, if_true, fallThrough_eq_writes, true_and]
  · simp only [h, if_false, reduceCtorEq, false_and]

/-! ## exec as a commit of one effect -/

/-- What each instruction's rule gives, before the commit: exec is `finish` of it. -/
def effectOf (i : Instr) (s : State) : Effect :=
  match i with
  | .cls => fallThrough s { s with fb := Framebuffer.blank, draw := true }
  | .ret => popAndGo s
  | .sys nnn => nativeCall nativeCallMode nnn s
  | .jp nnn => .writes s (addrOperand nnn)
  | .call nnn => pushAndGo s s.returnAddress (addrOperand nnn)
  | .seImm x nn => skipIf s (s.reg x == nn)
  | .sneImm x nn => skipIf s (s.reg x != nn)
  | .seReg x y => skipIf s (s.reg x == s.reg y)
  | .ldImm x nn => fallThrough s (s.setReg x nn)
  | .addImm x nn => fallThrough s (s.setReg x (s.reg x + nn))
  | .movReg x y => fallThrough s (s.setReg x (s.reg y))
  | .orReg x y => fallThrough s (s.setReg x (s.reg x ||| s.reg y))
  | .andReg x y => fallThrough s (s.setReg x (s.reg x &&& s.reg y))
  | .xorReg x y => fallThrough s (s.setReg x (s.reg x ^^^ s.reg y))
  | .addReg x y => fallThrough s (s.setRegAndFlag x (s.reg x + s.reg y) (carryOf (s.reg x) (s.reg y)))
  | .subReg x y => fallThrough s (s.setRegAndFlag x (s.reg x - s.reg y) (noBorrowOf (s.reg x) (s.reg y)))
  | .shrReg x _ => fallThrough s (s.setRegAndFlag x (s.reg x >>> 1) (shiftedOutRight (s.reg x)))
  | .subnReg x y => fallThrough s (s.setRegAndFlag x (s.reg y - s.reg x) (noBorrowOf (s.reg y) (s.reg x)))
  | .shlReg x _ => fallThrough s (s.setRegAndFlag x (s.reg x <<< 1) (shiftedOutLeft (s.reg x)))
  | .sneReg x y => skipIf s (s.reg x != s.reg y)
  | .ldI nnn => fallThrough s { s with i := BitVec.ofNat 16 (addrOperand nnn) }
  | .jpV0 nnn => .writes s ((s.reg 0).toNat + addrOperand nnn)
  | .rnd x nn => fallThrough s (s.drawRnd.setReg x (s.rnd &&& nn))
  | .drw x y n => checkBounds (s.ea 0) (countOperand n) (fallThrough s (s.drawSprite drawEdge x y (s.loadThroughI (countOperand n))))
  | .skp x => skipOnKey s x fun held => held
  | .sknp x => skipOnKey s x fun held => !held
  | .ldXDt x => fallThrough s (s.setReg x s.dt)
  | .ldXK x => waitForKey x s
  | .ldDtX x => fallThrough s { s with dt := s.reg x }
  | .ldStX x => fallThrough s { s with st := s.reg x }
  | .addIX x => incIndex s s (s.reg x).toNat
  | .ldFX x => pointAtGlyph x s
  | .ldBX x => checkBounds (s.ea 0) 3 (checkGlyph (s.ea 0) 3 (fallThrough s (s.storeThroughI (bcdDigits (s.reg x)))))
  | .ldMemX x => checkBounds (s.ea 0) (x.val + 1) (checkGlyph (s.ea 0) (x.val + 1)
      (incIndex s (s.storeThroughI (s.dumpBytes x)) (x.val + 1)))
  | .ldXMem x => checkBounds (s.ea 0) (x.val + 1) (incIndex s (s.loadRegs x) (x.val + 1))
  | .halt => fallThrough s { s with running := false }

theorem exec_eq_finish (i : Instr) (s : State) : exec i s = finish s (effectOf i s) := by
  cases i <;> rfl

/-- exec answers next exactly with the committed writes of the instruction's effect. -/
theorem exec_eq_next {i : Instr} {s t : State} :
    exec i s = .next t ↔ ∃ u n, effectOf i s = .writes u n ∧ n < memSize ∧ t = commitState u n := by
  rw [exec_eq_finish, finish_eq_next]

theorem exec_next_of_effect {i : Instr} {s u : State} {n : Nat} (he : effectOf i s = .writes u n) (hn : n < memSize) :
    exec i s = .next (commitState u n) := exec_eq_next.mpr ⟨u, n, he, hn, rfl⟩

theorem exec_outOfRange_of_effect {i : Instr} {s u : State} {n : Nat} (he : effectOf i s = .writes u n) (hn : memSize ≤ n) :
    exec i s = faultAt s (.memory .pcOutOfRange) n := by
  rw [exec_eq_finish, he, finish_writes_of_ge _ _ hn]

theorem exec_fault_of_effect {i : Instr} {s : State} {c : FaultCause} {a : Nat} (he : effectOf i s = .raises c a) :
    exec i s = faultAt s c a := by
  rw [exec_eq_finish, he, finish_raises]

/-- No instruction is refused. -/
theorem exec_ne_refused (i : Instr) (s : State) (r : Refusal) : exec i s ≠ .refused r := by
  rw [exec_eq_finish]
  exact finish_ne_refused s _ r

/-! ## step -/

theorem step_of_decode {s : State} {w : Word} {i : Instr} (hr : s.running = true) (hf : s.fetchWord = some w)
    (hd : decode w = some i) : step s = exec i s := by
  simp only [step, hr, if_true, hf, hd]

/-- step answers next exactly when a running core executes the instruction at PC. -/
theorem step_eq_next {s t : State} :
    step s = .next t ↔ s.running = true ∧ ∃ w i, s.fetchWord = some w ∧ decode w = some i ∧ exec i s = .next t := by
  constructor
  · intro h
    simp only [step] at h
    split at h
    · rename_i hr
      refine ⟨hr, ?_⟩
      split at h
      · cases h
      · rename_i w hw
        split at h
        · cases h
        · rename_i i hi
          exact ⟨w, i, hw, hi, h⟩
    · cases h
  · rintro ⟨hr, w, i, hw, hi, he⟩
    rw [step_of_decode hr hw hi, he]

/-- step refuses exactly while stopped, and then only with `stopped`. -/
theorem step_eq_refused {s : State} {r : Refusal} : step s = .refused r ↔ s.running = false ∧ r = .stopped := by
  constructor
  · intro h
    simp only [step] at h
    split at h
    · split at h
      · cases h
      · split at h
        · cases h
        · exact absurd h (exec_ne_refused _ _ _)
    · rename_i hr
      cases h
      exact ⟨by simpa using hr, rfl⟩
  · rintro ⟨hr, rfl⟩
    simp [step, hr]

/-- A fault step gives is recorded at the state before the step: its PC, and the word at PC. -/
theorem step_eq_fault {s : State} {f : Fault} (h : step s = .fault f) :
    s.running = true ∧ ∃ c a, f = .raised c s.pc s.fetchWord a := by
  simp only [step] at h
  split at h
  · rename_i hr
    refine ⟨hr, ?_⟩
    split at h
    · simp only [raiseFault, Host.Outcome.fault.injEq] at h
      exact ⟨_, _, h.symm⟩
    · split at h
      · simp only [raiseFault, Host.Outcome.fault.injEq] at h
        exact ⟨_, _, h.symm⟩
      · rw [exec_eq_finish] at h
        exact finish_eq_fault h
  · cases h

end Sys2Proof.Machine
end

