-- ==== Sys2Proof/Machine/Disasm.lean ====
section
/-! DEFINITION. Assembler spelling and the disassembly line (spec/30_encoding.md R120, R125, D32). The external disassembler uses only the decoder. -/

namespace Sys2Proof.Machine

/-- One uppercase hexadecimal digit. -/
def hexDigit (n : Nat) : String :=
  ["0", "1", "2", "3", "4", "5", "6", "7", "8", "9", "A", "B", "C", "D", "E", "F"].getD (n % 16) "0"

/-- The low `k` hexadecimal digits of `n`, most significant first. -/
def hexDigits : Nat → Nat → String
  | 0, _ => ""
  | k + 1, n => hexDigits k (n / 16) ++ hexDigit n

/-- A number written `0x` and `k` hexadecimal digits. -/
def hexText (k n : Nat) : String := "0x" ++ hexDigits k n

/-- A register, `V0` to `VF`. -/
def regText (r : Reg) : String := "V" ++ hexDigit r.val

/-- A mnemonic with one operand. -/
def asm1 (m a : String) : String := m ++ " " ++ a

/-- A mnemonic with two operands. -/
def asm2 (m a b : String) : String := m ++ " " ++ a ++ ", " ++ b

/-- The mnemonic and operands of an instruction (R120). -/
def asmText : Instr → String
  | .cls => "CLS"
  | .ret => "RET"
  | .sys nnn => asm1 "SYS" (hexText 3 nnn.toNat)
  | .jp nnn => asm1 "JP" (hexText 3 nnn.toNat)
  | .call nnn => asm1 "CALL" (hexText 3 nnn.toNat)
  | .seImm x nn => asm2 "SE" (regText x) (hexText 2 nn.toNat)
  | .sneImm x nn => asm2 "SNE" (regText x) (hexText 2 nn.toNat)
  | .seReg x y => asm2 "SE" (regText x) (regText y)
  | .ldImm x nn => asm2 "LD" (regText x) (hexText 2 nn.toNat)
  | .addImm x nn => asm2 "ADD" (regText x) (hexText 2 nn.toNat)
  | .movReg x y => asm2 "LD" (regText x) (regText y)
  | .orReg x y => asm2 "OR" (regText x) (regText y)
  | .andReg x y => asm2 "AND" (regText x) (regText y)
  | .xorReg x y => asm2 "XOR" (regText x) (regText y)
  | .addReg x y => asm2 "ADD" (regText x) (regText y)
  | .subReg x y => asm2 "SUB" (regText x) (regText y)
  | .shrReg x y => asm2 "SHR" (regText x) (regText y)
  | .subnReg x y => asm2 "SUBN" (regText x) (regText y)
  | .shlReg x y => asm2 "SHL" (regText x) (regText y)
  | .sneReg x y => asm2 "SNE" (regText x) (regText y)
  | .ldI nnn => asm2 "LD" "I" (hexText 3 nnn.toNat)
  | .jpV0 nnn => asm2 "JP" "V0" (hexText 3 nnn.toNat)
  | .rnd x nn => asm2 "RND" (regText x) (hexText 2 nn.toNat)
  | .drw x y n => asm2 "DRW" (regText x) (regText y) ++ ", " ++ hexText 1 n.toNat
  | .skp x => asm1 "SKP" (regText x)
  | .sknp x => asm1 "SKNP" (regText x)
  | .ldXDt x => asm2 "LD" (regText x) "DT"
  | .ldXK x => asm2 "LD" (regText x) "K"
  | .ldDtX x => asm2 "LD" "DT" (regText x)
  | .ldStX x => asm2 "LD" "ST" (regText x)
  | .addIX x => asm2 "ADD" "I" (regText x)
  | .ldFX x => asm2 "LD" "F" (regText x)
  | .ldBX x => asm2 "LD" "B" (regText x)
  | .ldMemX x => asm2 "LD" "[I]" (regText x)
  | .ldXMem x => asm2 "LD" (regText x) "[I]"
  | .halt => "HALT"

/-- The mnemonic of a word; an illegal word is `INVALID` and the word (R120). -/
def wordText (w : Word) : String :=
  match decode w with
  | some i => asmText i
  | none => asm1 "INVALID" (hexText 4 w.toNat)

/-- The disassembly line `address: word | mnemonic` (R125). -/
def disasmLine (addr : Nat) (w : Word) : String :=
  hexText 4 addr ++ ": " ++ hexText 4 w.toNat ++ " | " ++ wordText w

end Sys2Proof.Machine
end

