-- ==== Sys2Proof/Tests/Slice0.lean ====
section
/-! SUPPORT. The model's own tests, each about one step or one operation, their expected values taken from spec/95_test_vectors.md (the vector's name stands in the theorem's docstring) or computed by hand from the rule named there; and a witness for the hypotheses of every obligation. -/

namespace Sys2Proof.Tests

open Sys2Proof Sys2Proof.Machine

/-! ## Helpers -/

/-- The construction state with one instruction word at PC = 0x200. -/
def start (w : Nat) : State := State.reset.withFetchWord 16 w

/-- The same at another PC. -/
def startAt (pc w : Nat) : State := { State.reset with pc := BitVec.ofNat 16 pc }.withFetchWord 16 w

/-- Give registers their values. -/
def regs (rs : List (Reg × Byte)) (s : State) : State := rs.foldl (fun t p => t.setReg p.1 p.2) s

/-- Give bytes of Memory their values. -/
def bytes (a : Nat) (bs : List Byte) (s : State) : State := { s with mem := s.mem.writeBytes a bs }

/-- Give I its value. -/
def index (i : Nat) (s : State) : State := { s with i := BitVec.ofNat 16 i }

/-- What `f` reads after one step that succeeds. -/
def after {α : Type} (s : State) (f : State → α) : Option α := (nextState? (step s)).map f

/-- Which of the named cells are lit. -/
def probe (cs : List Cell) (s : State) : List Bool := cs.map s.fb.lit

/-- A framebuffer with the named cells lit. -/
def lightCells (cs : List Cell) (s : State) : State := { s with fb := cs.foldl Framebuffer.toggle s.fb }

/-! ## Well-formedness refuses, check by check -/

/-- R105: the word would be CLS. -/
theorem test_wellFormed_refuses_sys_0E0 : Instr.wellFormed (.sys 0x0E0#12) = false := by decide

/-- R105: the word would be RET. -/
theorem test_wellFormed_refuses_sys_0EE : Instr.wellFormed (.sys 0x0EE#12) = false := by decide

theorem test_wellFormed_accepts : ∀ i ∈ [Instr.cls, .sys 0x1E0#12, .sys 0x000#12, .drw 15 15 0xF#4, .halt], i.wellFormed = true := by
  decide

/-- R6: this hardware's parameters meet every constraint. -/
theorem test_params_wellFormed : params.wellFormed = true := by decide

/-- R6: the glyph table must end at or below the program. -/
theorem test_params_refuses_glyphs_past_program : { params with progOffset := 0x04F }.wellFormed = false := by decide

/-- R6: the program must start at or below the reserved region. -/
theorem test_params_refuses_program_past_reserved : { params with reservedBase := 0x1FF }.wellFormed = false := by decide

/-- R6: the reserved region must start at or below the stack. -/
theorem test_params_refuses_stack_below_reserved : { params with stackBase := 0xE9F }.wellFormed = false := by decide

/-- R6: the stack must end inside Memory. -/
theorem test_params_refuses_stack_past_memory : { params with memSize := 0xEBF }.wellFormed = false := by decide

/-- R6: every address must fit PC. -/
theorem test_params_refuses_memory_past_pc : { params with memSize := 0x10001 }.wellFormed = false := by decide

/-- R6: SP must hold every depth. -/
theorem test_params_refuses_stack_past_sp :
    { params with stackBase := 0xEA0, stackDepth := 128, memSize := 0x10000 }.wellFormed = false := by decide

/-- R56: five bytes for each of sixteen glyphs. -/
theorem test_params_refuses_short_glyphs : { params with glyphData := glyphData.drop 1 }.wellFormed = false := by decide

/-! ## Decoding: a word written out from R103 and R104 for every constructor -/

theorem test_decode_class0 :
    decodeTableWord 16 0x00E0 = some .cls ∧ decodeTableWord 16 0x00EE = some .ret ∧
    decodeTableWord 16 0x01E0 = some (.sys 0x1E0#12) ∧ decodeTableWord 16 0x0FEE = some (.sys 0xFEE#12) := by decide

theorem test_decode_addresses :
    decodeTableWord 16 0x1234 = some (.jp 0x234#12) ∧ decodeTableWord 16 0x2345 = some (.call 0x345#12) ∧
    decodeTableWord 16 0xA2F0 = some (.ldI 0x2F0#12) ∧ decodeTableWord 16 0xB300 = some (.jpV0 0x300#12) := by decide

theorem test_decode_immediates :
    decodeTableWord 16 0x3A42 = some (.seImm 10 0x42#8) ∧ decodeTableWord 16 0x4B42 = some (.sneImm 11 0x42#8) ∧
    decodeTableWord 16 0x6103 = some (.ldImm 1 0x03#8) ∧ decodeTableWord 16 0x72FF = some (.addImm 2 0xFF#8) ∧
    decodeTableWord 16 0xC30F = some (.rnd 3 0x0F#8) := by decide

theorem test_decode_register_pairs :
    decodeTableWord 16 0x5120 = some (.seReg 1 2) ∧ decodeTableWord 16 0x9120 = some (.sneReg 1 2) ∧
    decodeTableWord 16 0x8120 = some (.movReg 1 2) ∧ decodeTableWord 16 0x8121 = some (.orReg 1 2) ∧
    decodeTableWord 16 0x8122 = some (.andReg 1 2) ∧ decodeTableWord 16 0x8123 = some (.xorReg 1 2) ∧
    decodeTableWord 16 0x8124 = some (.addReg 1 2) ∧ decodeTableWord 16 0x8125 = some (.subReg 1 2) ∧
    decodeTableWord 16 0x8126 = some (.shrReg 1 2) ∧ decodeTableWord 16 0x8127 = some (.subnReg 1 2) ∧
    decodeTableWord 16 0x812E = some (.shlReg 1 2) := by decide

theorem test_decode_draw_and_keys :
    decodeTableWord 16 0xD125 = some (.drw 1 2 0x5#4) ∧ decodeTableWord 16 0xD000 = some (.drw 0 0 0x0#4) ∧
    decodeTableWord 16 0xE59E = some (.skp 5) ∧ decodeTableWord 16 0xE5A1 = some (.sknp 5) := by decide

theorem test_decode_classF :
    decodeTableWord 16 0xF307 = some (.ldXDt 3) ∧ decodeTableWord 16 0xF50A = some (.ldXK 5) ∧
    decodeTableWord 16 0xF115 = some (.ldDtX 1) ∧ decodeTableWord 16 0xF218 = some (.ldStX 2) ∧
    decodeTableWord 16 0xF11E = some (.addIX 1) ∧ decodeTableWord 16 0xF229 = some (.ldFX 2) ∧
    decodeTableWord 16 0xF033 = some (.ldBX 0) ∧ decodeTableWord 16 0xF255 = some (.ldMemX 2) ∧
    decodeTableWord 16 0xF265 = some (.ldXMem 2) ∧ decodeTableWord 16 0xF0FF = some .halt ∧
    decodeTableWord 16 0xFFFF = some .halt := by decide

/-- 2.1: the illegal words. -/
theorem test_decode_refuses :
    ∀ w ∈ [0x5121, 0x9121, 0x8008, 0x800F, 0xE09F, 0xF000], decodeTableWord 16 w = none := by decide

/-- R101: the sixteen bits of `DRW VA, VB, 0x5`, one by one. -/
theorem test_decode_bit_by_bit : decodeTableWord 16 0b1101101010110101 = some (.drw 0xA 0xB 0x5#4) := by decide

/-- R103, R120: some words the encoder writes. -/
theorem test_encode : encode (.drw 0xA 0xB 0x5#4) = 0xDAB5#16 ∧ encode .halt = 0xF0FF#16 ∧ encode (.sys 0x123#12) = 0x0123#16 ∧
    encodeBytes (.jp 0x234#12) = [0x12#8, 0x34#8] := by decide

/-- E10. -/
theorem test_disassembly :
    disasmLine 0x200 0x6005#16 = "0x0200: 0x6005 | LD V0, 0x05" ∧ disasmLine 0x202 0x6103#16 = "0x0202: 0x6103 | LD V1, 0x03" ∧
    disasmLine 0x204 0x8014#16 = "0x0204: 0x8014 | ADD V0, V1" := by decide

/-! ## State and Memory -/

/-- R55, R56: after construction. -/
theorem test_reset : State.reset.pc.toNat = 0x200 ∧ State.reset.running = true ∧ State.reset.mem.wf = true ∧
    State.reset.mem.readBytes 0x032 5 = [0xF0#8, 0x90#8, 0xF0#8, 0x90#8, 0x90#8] ∧ State.reset.mem.read 0x050 = 0 := by decide

/-- Equal memories are equal data: writing what an unlisted address reads as takes the entry out again. -/
theorem test_memory_canonical : (Memory.write (Memory.write [] 0x300 0x07#8) 0x300 0x00#8) = [] ∧
    Memory.write [] 0x000 0xF0#8 = [] ∧ Memory.write (Memory.write [] 5 0x20#8) 3 0x11#8 = [(3, 0x11#8)] := by decide

/-- R74: the higher-order byte lies at the lower address. -/
theorem test_withFetchWord : (start 0x1234).mem = [(0x200, 0x12#8), (0x201, 0x34#8)] ∧ (start 0x1234).fetchWord = some 0x1234#16 := by
  decide

/-- The host's question: the instruction placed is the next one run. -/
theorem test_withFetchWord_runs : after (State.reset.withFetchWord 16 0x6A5C) (fun t => t.reg 10) = some 0x5C#8 := by decide

/-! ## Control transfer (2.3) -/

/-- T1. -/
theorem test_jp : after (start 0x1234) (fun t => (t.pc, t.cycles)) = some (0x234#16, 1) := by decide

/-- T2. -/
theorem test_call : after (start 0x2300) (fun t => (t.pc, t.sp, t.mem.readBytes 0xEA0 2)) =
    some (0x300#16, 2#8, [0x02#8, 0x02#8]) := by decide

/-- T5. -/
theorem test_call_overflow : faultOf? (step { start 0x2300 with sp := 32 }) =
    some (.raised (.memory .stackOverflow) 0x200#16 (some 0x2300#16) 0xEC0) := by decide

/-- T3. -/
theorem test_ret : after { bytes 0xEA0 [0x02, 0x02] (startAt 0x204 0x00EE) with sp := 2 } (fun t => (t.pc, t.sp)) =
    some (0x202#16, 0#8) := by decide

/-- T4. -/
theorem test_ret_underflow : faultOf? (step (startAt 0x204 0x00EE)) =
    some (.raised (.memory .stackUnderflow) 0x204#16 (some 0x00EE#16) 0xEA0) := by decide

/-- T6. -/
theorem test_jpV0 : after (regs [(0, 0x10)] (start 0xB300)) (fun t => t.pc) = some 0x310#16 := by decide

/-- T7. -/
theorem test_jpV0_out_of_range : faultOf? (step (regs [(0, 0xFF)] (start 0xBFFF))) =
    some (.raised (.memory .pcOutOfRange) 0x200#16 (some 0xBFFF#16) 0x10FE) := by decide

/-- T8. -/
theorem test_sys_nop : after (start 0x0123) (fun t => (t.pc, t.sp, t.mem)) =
    some (0x202#16, 0#8, [(0x200, 0x01#8), (0x201, 0x23#8)]) := by decide

/-- T9. -/
theorem test_sys_call : (nextState? (finish State.reset (nativeCall .call 0x123#12 State.reset))).map
    (fun t => (t.pc, t.sp, t.mem.readBytes 0xEA0 2)) = some (0x123#16, 2#8, [0x02#8, 0x02#8]) := by decide

/-- T11. -/
theorem test_halt : after (start 0xFAFF) (fun t => (t.running, t.fault, t.pc, t.cycles, t.runState)) =
    some (false, none, 0x202#16, 1, .halted) := by decide

/-- T12. -/
theorem test_halt_out_of_range : faultOf? (step (startAt 0xFFE 0xF0FF)) =
    some (.raised (.memory .pcOutOfRange) 0xFFE#16 (some 0xF0FF#16) 0x1000) := by decide

/-! ## Step (2.2) -/

/-- P-1. -/
theorem test_fetch_out_of_bounds : faultOf? (step { State.reset with pc := 0xFFF#16 }) =
    some (.raised (.memory .outOfBounds) 0xFFF#16 none 0x1000) := by decide

/-- P7. -/
theorem test_illegal : (stepTransaction (startAt 0x202 0x5121)).1.fault =
      some (.raised .illegalInstruction 0x202#16 (some 0x5121#16) 0x202) ∧
    (stepTransaction (startAt 0x202 0x5121)).1.runState = .faulted := by decide

/-- P-4. -/
theorem test_stopped : (stepTransaction { start 0x6005 with running := false }).2 = .stopped := by decide

/-- P-5: no alignment. -/
theorem test_odd_pc : after (startAt 0x201 0x6005) (fun t => (t.reg 0, t.pc)) = some (0x05#8, 0x203#16) := by decide

/-! ## Skips (2.4) -/

/-- S1. -/
theorem test_seImm_taken : after (regs [(3, 0x42)] (start 0x3342)) (fun t => t.pc) = some 0x204#16 := by decide

/-- S2. -/
theorem test_seImm_not_taken : after (regs [(3, 0x42)] (start 0x3343)) (fun t => t.pc) = some 0x202#16 := by decide

/-- S3. -/
theorem test_sneImm_not_taken : after (regs [(3, 0x42)] (start 0x4342)) (fun t => t.pc) = some 0x202#16 := by decide

/-- S4. -/
theorem test_sneImm_taken : after (regs [(3, 0x42)] (start 0x4300)) (fun t => t.pc) = some 0x204#16 := by decide

/-- S5. -/
theorem test_seReg : after (regs [(1, 7), (2, 7)] (start 0x5120)) (fun t => t.pc) = some 0x204#16 := by decide

/-- S7. -/
theorem test_sneReg : after (regs [(1, 7), (2, 8)] (start 0x9120)) (fun t => t.pc) = some 0x204#16 := by decide

/-- S9. -/
theorem test_skp : after { regs [(5, 0xA)] (start 0xE59E) with keys := 0x0400#16 } (fun t => t.pc) = some 0x204#16 := by decide

/-- S12. -/
theorem test_skp_key_index : faultOf? (step (regs [(5, 0x10)] (start 0xE59E))) =
    some (.raised (.operand .keyIndex) 0x200#16 (some 0xE59E#16) 0x200) := by decide

/-- S11. -/
theorem test_sknp : after (regs [(5, 0xA)] (start 0xE5A1)) (fun t => t.pc) = some 0x204#16 := by decide

/-- S14. -/
theorem test_skip_out_of_range : faultOf? (step (regs [(3, 0x42)] (startAt 0xFFC 0x3342))) =
    some (.raised (.memory .pcOutOfRange) 0xFFC#16 (some 0x3342#16) 0x1000) := by decide

/-! ## ALU (2.5) -/

/-- A1. -/
theorem test_ldImm : after (start 0x6005) (fun t => t.reg 0) = some 0x05#8 := by decide

/-- A3. -/
theorem test_addImm : after (regs [(2, 0xFF), (15, 0x55)] (start 0x7201)) (fun t => (t.reg 2, t.reg VF)) = some (0x00#8, 0x55#8) := by
  decide

/-- A4. -/
theorem test_movReg : after (regs [(1, 0x33)] (start 0x8010)) (fun t => t.reg 0) = some 0x33#8 := by decide

/-- A5. -/
theorem test_orReg : after (regs [(0, 0x0C), (1, 0x0A), (15, 0x77)] (start 0x8011)) (fun t => (t.reg 0, t.reg VF)) =
    some (0x0E#8, 0x77#8) := by decide

/-- A6. -/
theorem test_andReg : after (regs [(0, 0x0C), (1, 0x0A), (15, 0x77)] (start 0x8012)) (fun t => (t.reg 0, t.reg VF)) =
    some (0x08#8, 0x77#8) := by decide

/-- A7. -/
theorem test_xorReg : after (regs [(0, 0x0C), (1, 0x0A), (15, 0x77)] (start 0x8013)) (fun t => (t.reg 0, t.reg VF)) =
    some (0x06#8, 0x77#8) := by decide

/-- A11: X = Y. -/
theorem test_addReg : after (regs [(0, 0x80)] (start 0x8004)) (fun t => (t.reg 0, t.reg VF)) = some (0x00#8, 1#8) := by decide

/-- A12: X = F. -/
theorem test_addReg_flag_final : after (regs [(15, 0xFF), (1, 1)] (start 0x8F14)) (fun t => t.reg VF) = some 1#8 := by decide

/-- A13. -/
theorem test_subReg : after (regs [(0, 3), (1, 5)] (start 0x8015)) (fun t => (t.reg 0, t.reg VF)) = some (0xFE#8, 0#8) := by decide

/-- A17: Y = F. -/
theorem test_subReg_flag_source : after (regs [(0, 7), (15, 9)] (start 0x80F5)) (fun t => (t.reg 0, t.reg VF)) =
    some (0xFE#8, 0#8) := by decide

/-- A19. -/
theorem test_shrReg : after (regs [(4, 0xFF)] (start 0x8476)) (fun t => (t.reg 4, t.reg VF, t.reg 7)) =
    some (0x7F#8, 1#8, 0#8) := by decide

/-- A22. -/
theorem test_subnReg : after (regs [(0, 1)] (start 0x8017)) (fun t => (t.reg 0, t.reg VF)) = some (0xFF#8, 0#8) := by decide

/-- A23. -/
theorem test_shlReg : after (regs [(4, 0x81)] (start 0x840E)) (fun t => (t.reg 4, t.reg VF)) = some (0x02#8, 1#8) := by decide

/-- A27: for every random byte. -/
theorem test_rnd_masked : ∃ t, exec (.rnd 3 0x00#8) State.reset = .next t ∧ t.reg 3 = 0 ∧ t.pc = 0x202#16 ∧ t.rndIndex = 1 :=
  ⟨_, exec_next_of_effect (i := .rnd 3 0x00#8) rfl (by decide), by simp [commitState_reg, State.reg_setReg], rfl, rfl⟩

/-- A28: the whole byte. -/
theorem test_rnd_whole : ∃ t, exec (.rnd 3 0xFF#8) State.reset = .next t ∧ t.reg 3 = Config.rnd 0 :=
  ⟨_, exec_next_of_effect (i := .rnd 3 0xFF#8) rfl (by decide), by
    simp only [commitState_reg, State.reg_setReg, if_true, State.rnd]
    exact BitVec.and_allOnes⟩

/-! ## Index register and memory (2.6) -/

/-- M1. -/
theorem test_ldI : after (start 0xA2F0) (fun t => t.i) = some 0x2F0#16 := by decide

/-- M2. -/
theorem test_addIX : after (regs [(1, 1), (15, 0x55)] (index 0xFFF (start 0xF11E))) (fun t => (t.i, t.reg VF)) =
    some (0x1000#16, 0x55#8) := by decide

/-- M3. -/
theorem test_addIX_overflow : faultOf? (step (regs [(1, 1)] (index 0xFFFF (start 0xF11E)))) =
    some (.raised (.memory .indexOverflow) 0x200#16 (some 0xF11E#16) 0xFFFF) := by decide

/-- M6. -/
theorem test_ldFX : after (regs [(2, 0x0F)] (start 0xF229)) (fun t => t.i) = some 0x04B#16 := by decide

/-- M7. -/
theorem test_ldFX_glyph_index : faultOf? (step (regs [(2, 0x10)] (start 0xF229))) =
    some (.raised (.operand .glyphIndex) 0x200#16 (some 0xF229#16) 0x200) := by decide

/-- M8 (E2). -/
theorem test_ldBX : after (regs [(0, 234)] (index 0x300 (start 0xF033))) (fun t => (t.mem.readBytes 0x300 3, t.i)) =
    some ([0x02#8, 0x03#8, 0x04#8], 0x300#16) := by decide

/-- M12. -/
theorem test_ldBX_glyph_write : faultOf? (step (regs [(0, 7)] (index 0x04E (start 0xF033)))) =
    some (.raised (.memory .glyphWrite) 0x200#16 (some 0xF033#16) 0x04E) := by decide

/-- M13. -/
theorem test_ldMemX : after (regs [(0, 1), (1, 2), (2, 3), (3, 4)] (index 0x300 (start 0xF255)))
    (fun t => (t.mem.readBytes 0x300 4, t.i)) = some ([1#8, 2#8, 3#8, 0#8], 0x303#16) := by decide

/-- M16. -/
theorem test_ldMemX_out_of_bounds : faultOf? (step (index 0xFF1 (start 0xFF55))) =
    some (.raised (.memory .outOfBounds) 0x200#16 (some 0xFF55#16) 0x1000) := by decide

/-- M18. -/
theorem test_ldXMem : after (bytes 0x300 [9, 8, 7, 6] (index 0x300 (start 0xF265)))
    (fun t => (t.reg 0, t.reg 1, t.reg 2, t.reg 3, t.i)) = some (9#8, 8#8, 7#8, 0#8, 0x303#16) := by decide

/-- M19: the glyph table may be read. -/
theorem test_ldXMem_glyph : after (start 0xF465) (fun t => (t.reg 0, t.reg 1, t.reg 4, t.i)) =
    some (0xF0#8, 0x90#8, 0xF0#8, 0x005#16) := by decide

/-! ## Display (2.7) -/

/-- D12. -/
theorem test_cls : after (lightCells [(5, 5)] (start 0x00E0)) (fun t => (probe [(5, 5), (0, 0)] t, t.draw)) =
    some ([false, false], true) := by decide

/-- D2. -/
theorem test_drw_collision : after (lightCells [(0, 0), (1, 0), (2, 0), (3, 0)] (bytes 0x300 [0xF0] (index 0x300 (start 0xD011))))
    (fun t => (probe [(0, 0), (3, 0), (4, 0)] t, t.reg VF, t.draw)) = some ([false, false, false], 1#8, true) := by decide

/-- D4. -/
theorem test_drw_clip : after (regs [(0, 60)] (bytes 0x300 [0xFF] (index 0x300 (start 0xD011))))
    (fun t => (probe [(59, 0), (60, 0), (63, 0), (0, 0), (3, 0), (0, 1)] t, t.reg VF)) =
    some ([false, true, true, false, false, false], 0#8) := by decide

/-- D7. -/
theorem test_drw_wrap : (nextState? (drawWith .wrap 0 1 0x2#4 (regs [(1, 31)] (bytes 0x300 [0x80, 0x80] (index 0x300 State.reset))))).map
    (probe [(0, 31), (0, 0), (0, 30), (0, 1)]) = some [true, true, false, false] := by decide

/-- D10. -/
theorem test_drw_reads_before_flag : after (regs [(15, 5)] (bytes 0x300 [0x80] (index 0x300 (start 0xDF11))))
    (fun t => (probe [(5, 0), (0, 0)] t, t.reg VF)) = some ([true, false], 0#8) := by decide

/-- D13. -/
theorem test_drw_out_of_bounds : faultOf? (step (regs [(0, 64)] (index 0xFFF (start 0xD012)))) =
    some (.raised (.memory .outOfBounds) 0x200#16 (some 0xD012#16) 0x1000) := by decide

/-! ## Timer and input (2.8) -/

/-- K1. -/
theorem test_ldXDt : after { start 0xF307 with dt := 0x3C#8 } (fun t => (t.reg 3, t.dt)) = some (0x3C#8, 0x3C#8) := by decide

/-- K2. -/
theorem test_ldXK_waits : after (start 0xF50A) (fun t => (t.pc, t.reg 5, t.cycles, t.runState)) =
    some (0x200#16, 0#8, 1, .waitingForKey) := by decide

/-- K3. -/
theorem test_ldXK_lowest : after { start 0xF50A with keys := 0x0120#16 } (fun t => (t.reg 5, t.pc, t.keys)) =
    some (5#8, 0x202#16, 0x0120#16) := by decide

/-- K5. -/
theorem test_ldDtX : after (regs [(1, 0x3C)] (start 0xF115)) (fun t => t.dt) = some 0x3C#8 := by decide

/-- K6. -/
theorem test_ldStX : after (regs [(2, 1)] (start 0xF218)) (fun t => (t.st, t.tone)) = some (1#8, false) := by decide

/-! ## Host operations (2.9) -/

/-- H1, H2. -/
theorem test_decTimers : ({ State.reset with dt := 5#8, st := 1#8 }.decTimers).tone = true ∧
    ({ State.reset with dt := 5#8, st := 1#8 }.decTimers).dt = 4#8 ∧ State.reset.decTimers.dt = 0#8 ∧
    State.reset.decTimers.tone = false := by decide

/-- H3 to H5. -/
theorem test_key_events : (State.reset.keyDown 3).keys = 0x0008#16 ∧ ((State.reset.keyDown 3).keyDown 3).keys = 0x0008#16 ∧
    ((State.reset.keyDown 3).keyUp 3).keys = 0#16 := by decide

/-- H8. -/
theorem test_reset_operation : ({ start 0xF0FF with running := false, cycles := 5, sp := 2#8 }.hostReset).running = true ∧
    ({ start 0xF0FF with running := false, cycles := 5, sp := 2#8 }.hostReset).cycles = 5 ∧
    ({ start 0xF0FF with running := false, cycles := 5, sp := 2#8 }.hostReset).sp = 0#8 ∧
    ({ start 0xF0FF with running := false, cycles := 5, sp := 2#8 }.hostReset).mem = (start 0xF0FF).mem := by decide

/-- H6. -/
theorem test_load_too_long : transact State.reset (.load (List.replicate 3233 0x12#8)) = (State.reset, .loadFault) := by
  have h : progWindow < (List.replicate 3233 0x12#8).length := by rw [List.length_replicate]; decide
  simp only [transact, State.load, if_pos h]

/-- E1, loaded by the host. -/
theorem test_load : (transact State.reset (.load [0x60, 0x05])).1.fetchWord = some 0x6005#16 := by decide

/-- H9. -/
theorem test_clearDraw : ({ State.reset with draw := true }.clearDraw).draw = false := by decide

/-- R310, R312, R314: the codes of P5's record. -/
theorem test_fault_codes : (FaultCause.memory .stackOverflow).classCode = 1 ∧ (FaultCause.memory .stackOverflow).kindCode = some 3 ∧
    FaultCause.illegalInstruction.kindCode = none := by decide

/-! ## Witnesses: for every obligation with hypotheses, a state and operands that meet all of them, clause by clause, at the
boundaries of their ranges -/

theorem next_of_isSome {o : Result} (h : (nextState? o).isSome = true) : ∃ t, o = .next t := by
  cases o with
  | next t => exact ⟨t, rfl⟩
  | fault f => cases h
  | refused r => cases h

theorem next_with {o : Result} {p : State → Bool} (h : (nextState? o).any p = true) : ∃ t, o = .next t ∧ p t = true := by
  cases o with
  | next t => exact ⟨t, rfl, h⟩
  | fault f => cases h
  | refused r => cases h

theorem fault_of_isSome {o : Result} (h : (faultOf? o).isSome = true) : ∃ f, o = .fault f := by
  cases o with
  | next t => cases h
  | fault f => exact ⟨f, rfl⟩
  | refused r => cases h

/-- The construction state with PC, I and V0 set: the boundary states of the range clauses. -/
def at_ (pc i : Nat) (v0 : Byte) : State := { regs [(0, v0)] (index i State.reset) with pc := BitVec.ofNat 16 pc }

theorem witness_DecodeOfEncode : Instr.wellFormed (.sys 0x0EF#12) = true ∧ Instr.wellFormed (.drw 15 15 0xF#4) = true := by decide

/-- Both clauses: a word that is its instruction's own, and a HALT word with X = A. -/
theorem witness_EncodeOfDecode : decode 0x5120#16 = some (.seReg 1 2) ∧ Instr.seReg 1 2 ≠ .halt ∧ decode 0xFAFF#16 = some .halt := by
  decide

theorem witness_DecoderFollowsTheClassTable : (0x0EF#12).toNat ≠ 0x0E0 ∧ (0x0EF#12).toNat ≠ 0x0EE := by decide

/-- Each alternative of the equivalence at a boundary: the last legal and the first illegal N or NN. -/
theorem witness_IllegalWords : decode 0x5FF0#16 ≠ none ∧ decode 0x5FF1#16 = none ∧ decode 0x8127#16 ≠ none ∧ decode 0x8128#16 = none ∧
    decode 0x812F#16 = none ∧ decode 0x9001#16 = none ∧ decode 0xE09F#16 = none ∧ decode 0xF0FE#16 = none := by decide

theorem witness_ClassZero : (0x00E0#16).toNat < 0x1000 ∧ (0x0FFF#16).toNat < 0x1000 ∧ 0x0FFF#16 ≠ 0x00E0#16 ∧ 0x0FFF#16 ≠ 0x00EE#16 := by
  decide

/-- At the last address an instruction fits. -/
theorem witness_StepRunsTheDecodedInstruction : (startAt 0xFFE 0x00EE).running = true ∧
    (startAt 0xFFE 0x00EE).pc.toNat + 1 < memSize ∧
    decodeBytes ((startAt 0xFFE 0x00EE).mem.readBytes (startAt 0xFFE 0x00EE).pc.toNat 2) = .ok (.ret, []) :=
  ⟨by decide, by decide, rfl⟩

/-- Both clauses, and both sides of the fault's address. -/
theorem witness_Fetch : (at_ 0xFFE 0 0).pc.toNat + 1 < memSize ∧ memSize ≤ (at_ 0xFFF 0 0).pc.toNat + 1 ∧
    memSize ≤ (at_ 0x1000 0 0).pc.toNat ∧ (at_ 0xFFF 0 0).running = true := by decide

theorem witness_IllegalWordFaults : (start 0x5121).running = true ∧ (start 0x5121).fetchWord = some 0x5121#16 ∧
    decode 0x5121#16 = none := by decide

theorem witness_Stopped : { State.reset with running := false }.running = false := rfl

theorem witness_FaultingStep : ∃ f, step (start 0x5121) = .fault f := fault_of_isSome (by decide)

theorem witness_SuccessfulStep : ∃ t, step (start 0x6005) = .next t := next_of_isSome (by decide)

/-- A CALL from a state that meets the invariant. -/
theorem witness_Invariant : (start 0x2300).Inv ∧ ∃ t, step (start 0x2300) = .next t := by
  refine ⟨⟨by decide, fun a ha => ?_, by decide, by decide, by decide, by decide⟩, next_of_isSome (by decide)⟩
  have hlt : a < 80 := by simpa [isGlyphAddr, glyphBase, glyphLen] using ha
  exact Memory.read_writeWord_outside [] _ (.inl (show a < 0x200 by omega))

theorem witness_GlyphAddress : isGlyphAddr 0x000 = true ∧ isGlyphAddr 0x04F = true ∧ isGlyphAddr 0x050 = false := by decide

theorem witness_OnlyKeyEvents : (transact State.reset (.keyDown 15)).1.keys ≠ State.reset.keys ∧
    (transact { State.reset with keys := 1#16 } (.keyUp 0)).1.keys ≠ 1#16 := by decide

/-- Both clauses. -/
theorem witness_StepChangesTimers : (∃ t, step (regs [(1, 1)] (start 0xF115)) = .next t ∧ (t.dt != 0#8) = true) ∧
    ∃ t, step (regs [(1, 1)] (start 0xF118)) = .next t ∧ (t.st != 0#8) = true :=
  ⟨next_with (p := fun t => t.dt != 0#8) (by decide), next_with (p := fun t => t.st != 0#8) (by decide)⟩

/-- Both instructions. -/
theorem witness_OnlyClsAndDrw :
    (transact (lightCells [(63, 31)] (start 0x00E0)) .step).1.fb.lit (63, 31) ≠ (lightCells [(63, 31)] (start 0x00E0)).fb.lit (63, 31) ∧
    (transact (start 0xD001) .step).1.fb.lit (0, 0) ≠ (start 0xD001).fb.lit (0, 0) := by decide

/-- The three clauses. -/
theorem witness_DirtyFlag : (∃ t, step (start 0xD000) = .next t) ∧ (start 0xD000).fetchWord.bind decode = some (.drw 0 0 0#4) ∧
    (start 0x00E0).draw = false ∧ (transact (start 0x00E0) .step).1.draw = true ∧
    { State.reset with draw := true }.draw = true :=
  ⟨next_of_isSome (by decide), by decide, by decide, by decide, rfl⟩

/-- Both moves, CALL at the last free slot and RET at the first. -/
theorem witness_StackPointerMoves : (∃ t, step { start 0x2300 with sp := 30#8 } = .next t ∧ (t.sp != 30#8) = true) ∧
    ∃ t, step { start 0x00EE with sp := 2#8 } = .next t ∧ (t.sp != 2#8) = true :=
  ⟨next_with (p := fun t => t.sp != 30#8) (by decide), next_with (p := fun t => t.sp != 2#8) (by decide)⟩

/-- The clauses: HALT, a fault, and `reset`. -/
theorem witness_OnlyHaltAndFaults : (start 0xF0FF).running = true ∧ (transact (start 0xF0FF) .step).1.running = false ∧
    (transact (start 0x5121) .step).1.running = false ∧
    (transact { State.reset with running := false } .reset).1.running = true := by decide

/-- The frames: each shape of instruction answers next. -/
theorem witness_Frames : (∃ t, exec (.addReg 0 15) State.reset = .next t) ∧ (∃ t, exec (.call 0xFFF#12) State.reset = .next t) ∧
    (∃ t, exec (.ldMemX 15) (at_ 0x200 0xFF0 7) = .next t) ∧ (∃ t, exec (.ldBX 0) (at_ 0x200 0x050 7) = .next t) ∧
    (∃ t, exec (.ldXMem 15) (at_ 0x200 0 7) = .next t) ∧ ∃ t, exec .halt State.reset = .next t :=
  ⟨next_of_isSome (by decide), next_of_isSome (by decide), next_of_isSome (by decide), next_of_isSome (by decide),
   next_of_isSome (by decide), next_of_isSome (by decide)⟩

/-- `PC + 2` inside Memory, at its last value, and past it: the hypotheses of the results of the ALU, SYS, HALT, CLS and the timer
transfers. -/
theorem witness_FallThrough : (at_ 0xFFD 0 0).pc.toNat + 2 < memSize ∧ (at_ 0xFFD 0 0).pc.toNat + 2 = 0xFFF ∧
    memSize ≤ (at_ 0xFFE 0 0).pc.toNat + 2 ∧ (0 : Reg) ≠ VF := by decide

/-- Both clauses of JP V0 where they meet. -/
theorem witness_Jumps : ((at_ 0x200 0 0x00).reg 0).toNat + (0xFFF#12).toNat < memSize ∧
    memSize ≤ ((at_ 0x200 0 0x01).reg 0).toNat + (0xFFF#12).toNat := by decide

/-- CALL: the last free slot, and the full stack. -/
theorem witness_Call : { State.reset with sp := 30#8 }.sp.toNat ≠ 2 * stackDepth ∧ { State.reset with sp := 32#8 }.sp.toNat = 2 * stackDepth ∧
    State.reset.mem.wf = true := by decide

/-- The state RET pops `r` in. -/
def returning (hi lo : Byte) : State := { bytes 0xEA0 [hi, lo] State.reset with sp := 2#8 }

/-- RET: the last address inside Memory, the first outside, and the empty stack. -/
theorem witness_Return :
    (returning 0x0F 0xFF).sp.toNat ≠ 0 ∧ ((returning 0x0F 0xFF).mem.read (stackBase + 2 - 2)).toNat * 256 +
      ((returning 0x0F 0xFF).mem.read (stackBase + 2 - 1)).toNat < memSize ∧
    memSize ≤ ((returning 0x10 0x00).mem.read (stackBase + 2 - 2)).toNat * 256 +
      ((returning 0x10 0x00).mem.read (stackBase + 2 - 1)).toNat ∧ State.reset.sp.toNat = 0 := by decide

/-- CALL then RET: in the middle of Memory, and with the CALL in the last word. -/
theorem witness_CallThenReturn :
    ((bytes 0x300 [0x00, 0xEE] (start 0x2300)).mem.wf = true ∧ (bytes 0x300 [0x00, 0xEE] (start 0x2300)).sp.toNat ≤ 2 * stackDepth ∧
      (bytes 0x300 [0x00, 0xEE] (start 0x2300)).fetchWord.bind decode = some (.call 0x300#12) ∧
      (∃ t, step (bytes 0x300 [0x00, 0xEE] (start 0x2300)) = .next t ∧ (t.fetchWord == some 0x00EE#16) = true) ∧
      (bytes 0x300 [0x00, 0xEE] (start 0x2300)).pc.toNat + 2 < memSize) ∧
    ((bytes 0x300 [0x00, 0xEE] (startAt 0xFFE 0x2300)).fetchWord.bind decode = some (.call 0x300#12) ∧
      (∃ t, step (bytes 0x300 [0x00, 0xEE] (startAt 0xFFE 0x2300)) = .next t ∧ (t.fetchWord == some 0x00EE#16) = true) ∧
      memSize ≤ (bytes 0x300 [0x00, 0xEE] (startAt 0xFFE 0x2300)).pc.toNat + 2) :=
  ⟨⟨by decide, by decide, by decide, next_with (p := fun t => t.fetchWord == some 0x00EE#16) (by decide), by decide⟩,
   by decide, next_with (p := fun t => t.fetchWord == some 0x00EE#16) (by decide), by decide⟩

/-- HALT of a core without a fault record. -/
theorem witness_Halt : State.reset.pc.toNat + 2 < memSize ∧ State.reset.fault = none := by decide

/-- The pairs the statement on the comparing skips ranges over. -/
def skips (x y : Reg) (nn : Byte) (s : State) : List (Instr × Bool) :=
  [(.seImm x nn, decide ((s.reg x).toNat = nn.toNat)), (.sneImm x nn, decide ((s.reg x).toNat ≠ nn.toNat)),
    (.seReg x y, decide ((s.reg x).toNat = (s.reg y).toNat)), (.sneReg x y, decide ((s.reg x).toNat ≠ (s.reg y).toNat))]

/-- Both clauses, with the condition true and false, where they meet. -/
theorem witness_ComparingSkips :
    ((Instr.seImm 0 0#8, true) ∈ skips 0 1 0#8 (at_ 0xFFB 0 0) ∧ (at_ 0xFFB 0 0).pc.toNat + 4 < memSize) ∧
    ((Instr.sneReg 0 1, true) ∈ skips 0 1 0#8 (at_ 0xFFC 0 1) ∧ memSize ≤ (at_ 0xFFC 0 1).pc.toNat + 4) ∧
    ((Instr.sneImm 0 0#8, false) ∈ skips 0 1 0#8 (at_ 0xFFD 0 0) ∧ (at_ 0xFFD 0 0).pc.toNat + 2 < memSize) ∧
    ((Instr.seReg 0 1, false) ∈ skips 0 1 0#8 (at_ 0xFFE 0 1) ∧ memSize ≤ (at_ 0xFFE 0 1).pc.toNat + 2) := by decide

/-- The three clauses: key 15, held and not, on both sides of the range, and index 16. -/
theorem witness_KeySkips : ((at_ 0xFFB 0 15).reg 0).toNat ≤ 15 ∧ (at_ 0xFFB 0 15).pc.toNat + 4 < memSize ∧
    memSize ≤ (at_ 0xFFC 0 15).pc.toNat + 4 ∧ 15 < ((at_ 0xFFC 0 16).reg 0).toNat := by decide

/-- The clauses of ANNN, FX1E and FX29 where they meet. -/
theorem witness_IndexRegister : (at_ 0xFFD 0xFFFE 1).pc.toNat + 2 < memSize ∧
    (at_ 0xFFD 0xFFFE 1).i.toNat + ((at_ 0xFFD 0xFFFE 1).reg 0).toNat ≤ 0xFFFF ∧
    0xFFFF < (at_ 0xFFD 0xFFFF 1).i.toNat + ((at_ 0xFFD 0xFFFF 1).reg 0).toNat ∧
    ((at_ 0xFFD 0 15).reg 0).toNat ≤ 15 ∧ 15 < ((at_ 0xFFD 0 16).reg 0).toNat := by decide

/-- FX33: the first address past the glyphs, the last that fits, the first that does not, the last glyph byte. -/
theorem witness_Bcd : (at_ 0x200 0x050 0).i.toNat + 3 ≤ memSize ∧ isGlyphAddr 0x050 = false ∧
    (at_ 0x200 0xFFD 0).i.toNat + 3 ≤ memSize ∧ isGlyphAddr 0xFFD = false ∧ (at_ 0x200 0xFFD 0).mem.wf = true ∧
    memSize < (at_ 0x200 0xFFE 0).i.toNat + 3 ∧ isGlyphAddr 0x04F = true := by decide

/-- FX55 and FX65 with X = 15: the last address that fits, the first that does not, the last glyph byte. -/
theorem witness_RegisterDumpAndLoad : (at_ 0x200 0xFF0 0).i.toNat + (15 : Reg).val + 1 ≤ memSize ∧ isGlyphAddr 0xFF0 = false ∧
    (at_ 0x200 0xFF0 0).mem.wf = true ∧ (at_ 0x200 0xFF0 0).pc.toNat + 2 < memSize ∧
    memSize < (at_ 0x200 0xFF1 0).i.toNat + (15 : Reg).val + 1 ∧
    (at_ 0x200 0x04F 0).i.toNat + (15 : Reg).val + 1 ≤ memSize ∧ isGlyphAddr 0x04F = true := by decide

/-- DXYN, under either edge policy: no rows with I past Memory, fifteen rows at the last address that fits, with `PC + 2` inside
Memory and past it, and fifteen rows at the first address that does not fit. -/
theorem witness_Drw : ((0#4).toNat = 0 ∧ memSize < (at_ 0x200 0xFFFF 0).i.toNat) ∧
    ((at_ 0xFFD 0xFF1 0).i.toNat + (15#4).toNat ≤ memSize ∧ (at_ 0xFFD 0xFF1 0).pc.toNat + 2 < memSize) ∧
    ((at_ 0xFFE 0xFF1 0).i.toNat + (15#4).toNat ≤ memSize ∧ memSize ≤ (at_ 0xFFE 0xFF1 0).pc.toNat + 2) ∧
    ((15#4).toNat ≠ 0 ∧ memSize < (at_ 0x200 0xFF2 0).i.toNat + (15#4).toNat) := by decide

/-- The same draw can be made twice under both policies, on target cells that were all dark. -/
theorem witness_DrawingTwice : ∀ edge ∈ [DrawEdge.clip, DrawEdge.wrap],
    (∃ t, drawWith edge 0 1 0x5#4 (at_ 0x200 0 60) = .next t ∧
      (t.reg 0 == (at_ 0x200 0 60).reg 0 && t.reg 1 == (at_ 0x200 0 60).reg 1 && decide (t.pc.toNat + 2 < memSize)) = true) ∧
    ∀ c : Cell, SpriteCovers edge (at_ 0x200 0 60) 60 0 5 c → (at_ 0x200 0 60).fb.lit c = false := by
  intro edge h
  refine ⟨next_with (p := fun t => t.reg 0 == (at_ 0x200 0 60).reg 0 && t.reg 1 == (at_ 0x200 0 60).reg 1 &&
    decide (t.pc.toNat + 2 < memSize)) ?_, fun c _ => Framebuffer.lit_blank c⟩
  revert edge
  decide

/-- Both clauses: waiting at the last address of Memory, and key 15 alone with `PC + 2` at its last value. -/
theorem witness_KeyWait : (at_ 0xFFF 0 0).keys = 0 ∧ (at_ 0xFFF 0 0).pc.toNat < memSize ∧
    { at_ 0xFFD 0 0 with keys := 0x8000#16 }.keys ≠ 0 ∧ { at_ 0xFFD 0 0 with keys := 0x8000#16 }.pc.toNat + 2 < memSize := by decide

theorem witness_WaitingForKey : (startAt 0xFFE 0xF50A).runState = .waitingForKey := by decide

/-- Every clause at the first PC that falls off the end. -/
theorem witness_FallingOff : memSize ≤ (at_ 0xFFE 0xFEFF 15).pc.toNat + 2 ∧
    (at_ 0xFFE 0xFEFF 15).i.toNat + ((at_ 0xFFE 0xFEFF 15).reg 0).toNat ≤ 0xFFFF ∧ ((at_ 0xFFE 0 15).reg 0).toNat ≤ 15 ∧
    { at_ 0xFFE 0 0 with keys := 1#16 }.keys ≠ 0 ∧ (at_ 0xFFE 0xFFD 15).i.toNat + 3 ≤ memSize ∧ isGlyphAddr 0xFFD = false ∧
    (at_ 0xFFE 0xFF0 0).i.toNat + (15 : Reg).val + 1 ≤ memSize ∧ isGlyphAddr 0xFF0 = false ∧
    (at_ 0xFFE 0xFF1 0).i.toNat + (15#4).toNat ≤ memSize := by decide

/-- FX55 from PC on, so that the next fetch reads V2 and V3. -/
theorem witness_StoredBytes : (index 0x200 (start 0xF355)).mem.wf = true ∧
    (∃ t, exec (.ldMemX 3) (index 0x200 (start 0xF355)) = .next t ∧ (t.pc == 0x202#16) = true) ∧ (3 : Reg) ≤ 3 ∧
    (3 : Reg).val = (2 : Reg).val + 1 ∧ (0x202#16).toNat = (index 0x200 (start 0xF355)).i.toNat + (2 : Reg).val :=
  ⟨by decide, next_with (p := fun t => t.pc == 0x202#16) (by decide), by decide, by decide, by decide⟩

/-- Both clauses of `load`, where they meet. -/
theorem witness_Load : (List.replicate 3232 (0x12#8)).length ≤ progWindow ∧ progWindow < (List.replicate 3233 (0x12#8)).length ∧
    ([0x60#8, 0x05#8] : List Byte)[1]? = some 0x05#8 ∧ State.reset.mem.wf = true := by
  rw [List.length_replicate, List.length_replicate]
  decide

end Sys2Proof.Tests
end

section
/-! The rule of each shared operation: what a property must say of which state for it to hold of everything the operation writes. -/

namespace Sys2Proof.Machine

/-- Every state an effect writes has the property `P`; an effect that raises a fault writes none. -/
def Effect.Ensures (e : Effect) (P : State → Prop) : Prop := ∀ u n, e = .writes u n → P u

variable {P : State → Prop} {s t : State}

@[simp] theorem ensures_writes {n : Nat} : (Effect.writes t n).Ensures P ↔ P t := by
  simp [Effect.Ensures]

/-- The rule of an operation whose one outcome `t` is guarded by a check `c`. -/
theorem ensures_of_eq_writes {e : Effect} {c : Prop} {m : Nat} (h : ∀ u n, e = .writes u n ↔ c ∧ u = t ∧ n = m) :
    e.Ensures P ↔ (c → P t) := by
  constructor
  · exact fun hP hc => hP t m ((h t m).mpr ⟨hc, rfl, rfl⟩)
  · intro hP u n hu
    obtain ⟨hc, rfl, -⟩ := (h u n).mp hu
    exact hP hc

@[simp] theorem ensures_fallThrough : (fallThrough s t).Ensures P ↔ P t := ensures_writes

@[simp] theorem ensures_skipIf {c : Bool} : (skipIf s c).Ensures P ↔ P s := ensures_writes

@[simp] theorem ensures_skipOnKey {x : Reg} {c : Bool → Bool} :
    (skipOnKey s x c).Ensures P ↔ ((∃ k : Key, (s.reg x).toNat = k.val) → P s) := by
  simp only [Effect.Ensures, skipOnKey_eq_writes]
  constructor
  · rintro h ⟨k, hk⟩
    exact h s _ ⟨k, hk, rfl, rfl⟩
  · rintro h u n ⟨k, hk, rfl, -⟩
    exact h ⟨k, hk⟩

@[simp] theorem ensures_checkBounds {a n : Nat} {e : Effect} :
    (checkBounds a n e).Ensures P ↔ (n = 0 ∨ a + n ≤ memSize → e.Ensures P) := by
  simp only [Effect.Ensures, checkBounds_eq_writes, and_imp]
  exact ⟨fun h hb u m => h u m hb, fun h u m hb => h hb u m⟩

@[simp] theorem ensures_checkGlyph {a n : Nat} {e : Effect} :
    (checkGlyph a n e).Ensures P ↔ ((∀ j, a ≤ j → j < a + n → isGlyphAddr j = false) → e.Ensures P) := by
  simp only [Effect.Ensures, checkGlyph_eq_writes, and_imp]
  exact ⟨fun h hg u m => h u m hg, fun h u m hg => h hg u m⟩

@[simp] theorem ensures_incIndex {n : Nat} :
    (incIndex s t n).Ensures P ↔ (s.i.toNat + n ≤ 0xFFFF → P { t with i := BitVec.ofNat 16 (s.i.toNat + n) }) :=
  ensures_of_eq_writes fun _ _ => incIndex_eq_writes

@[simp] theorem ensures_pushAndGo {r : Word} {target : Nat} :
    (pushAndGo s r target).Ensures P ↔
      (s.sp.toNat ≠ 2 * stackDepth → P { s with mem := s.mem.writeWord s.stackTop r, sp := s.sp + 2 }) :=
  ensures_of_eq_writes fun _ _ => pushAndGo_eq_writes

@[simp] theorem ensures_popAndGo : (popAndGo s).Ensures P ↔ (s.sp.toNat ≠ 0 → P { s with sp := s.sp - 2 }) :=
  ensures_of_eq_writes fun _ _ => popAndGo_eq_writes

@[simp] theorem ensures_waitForKey {x : Reg} :
    (waitForKey x s).Ensures P ↔
      (s.lowestKey = none → P s) ∧ ∀ k, s.lowestKey = some k → P (s.setReg x (keyByte k)) := by
  simp only [Effect.Ensures, waitForKey_eq_writes]
  constructor
  · intro h
    exact ⟨fun hk => h s _ (.inl ⟨hk, rfl, rfl⟩), fun k hk => h _ _ (.inr ⟨k, hk, rfl, rfl⟩)⟩
  · rintro ⟨hnone, hsome⟩ u n (⟨hk, rfl, -⟩ | ⟨k, hk, rfl, -⟩)
    · exact hnone hk
    · exact hsome k hk

@[simp] theorem ensures_pointAtGlyph {x : Reg} :
    (pointAtGlyph x s).Ensures P ↔ ((s.reg x).toNat < glyphCount →
      P { s with i := BitVec.ofNat 16 (glyphBase + glyphBytes * (s.reg x).toNat) }) :=
  ensures_of_eq_writes fun _ _ => pointAtGlyph_eq_writes

/-- An instruction that succeeds commits a state that has every property its effect ensures. -/
theorem exec_next_of_ensures {i : Instr} (hP : (effectOf i s).Ensures P) (h : exec i s = .next t) :
    ∃ u n, P u ∧ n < memSize ∧ t = commitState u n := by
  obtain ⟨u, n, hu, hn, rfl⟩ := exec_eq_next.mp h
  exact ⟨u, n, hP u n hu, hn, rfl⟩

end Sys2Proof.Machine
end

section
/-! Frames (spec/00_scope.md R14, D40): the pieces of state an instruction does not list are left alone as data. -/

namespace Sys2Proof.Machine

/-- A piece of state is the same data in two states; `Part.same` compares what it reads as. -/
def Part.Kept : Part → State → State → Prop
  | .regs, s, t => t.v = s.v
  | .i, s, t => t.i = s.i
  | .sp, s, t => t.sp = s.sp
  | .dt, s, t => t.dt = s.dt
  | .st, s, t => t.st = s.st
  | .keys, s, t => t.keys = s.keys
  | .fb, s, t => t.fb = s.fb
  | .draw, s, t => t.draw = s.draw
  | .running, s, t => t.running = s.running
  | .fault, s, t => t.fault = s.fault
  | .tone, s, t => t.tone = s.tone
  | .mem, s, t => t.mem = s.mem
  | .rndIndex, s, t => t.rndIndex = s.rndIndex

/-- Equal data reads the same. -/
theorem Part.Kept.same {p : Part} {s t : State} (h : p.Kept s t) : p.same s t := by
  cases p with
  | regs => exact State.reg_congr h
  | fb => exact fun c => congrArg (Framebuffer.lit · c) h
  | mem => exact fun a => congrArg (Memory.read · a) h
  | _ => exact h

/-- The commit writes PC and `cycles` only, which are not among the pieces. -/
theorem Part.kept_commitState {p : Part} {s u : State} {n : Nat} : p.Kept s (commitState u n) ↔ p.Kept s u := by
  cases p <;> exact Iff.rfl

/-- Every piece of state but the named ones (and PC and `cycles`) is the same data. -/
def KeptExcept (s t : State) (written : List Part) : Prop := ∀ p : Part, p ∉ written → p.Kept s t

/-- A frame, piece by piece. -/
theorem keptExcept_iff {s t : State} {ps : List Part} :
    KeptExcept s t ps ↔
      (Part.regs ∉ ps → t.v = s.v) ∧ (Part.i ∉ ps → t.i = s.i) ∧ (Part.sp ∉ ps → t.sp = s.sp) ∧
      (Part.dt ∉ ps → t.dt = s.dt) ∧ (Part.st ∉ ps → t.st = s.st) ∧ (Part.keys ∉ ps → t.keys = s.keys) ∧
      (Part.fb ∉ ps → t.fb = s.fb) ∧ (Part.draw ∉ ps → t.draw = s.draw) ∧
      (Part.running ∉ ps → t.running = s.running) ∧ (Part.fault ∉ ps → t.fault = s.fault) ∧
      (Part.tone ∉ ps → t.tone = s.tone) ∧ (Part.mem ∉ ps → t.mem = s.mem) ∧
      (Part.rndIndex ∉ ps → t.rndIndex = s.rndIndex) := by
  constructor
  · intro h
    exact ⟨h .regs, h .i, h .sp, h .dt, h .st, h .keys, h .fb, h .draw, h .running, h .fault, h .tone, h .mem, h .rndIndex⟩
  · rintro ⟨hv, hi, hsp, hdt, hst, hkeys, hfb, hdraw, hrun, hfault, htone, hmem, hrnd⟩ p
    cases p <;> assumption

theorem KeptExcept.refl (s : State) (ps : List Part) : KeptExcept s s ps := by
  simp [keptExcept_iff]

theorem keptExcept_setReg (s : State) (r : Reg) (b : Byte) : KeptExcept s (s.setReg r b) [.regs] := by
  simp [keptExcept_iff]

theorem keptExcept_setRegAndFlag (s : State) (r : Reg) (b : Byte) (f : Bool) :
    KeptExcept s (s.setRegAndFlag r b f) [.regs] := by
  simp [keptExcept_iff]

/-- R14, D40: the writes of an instruction's rule leave every piece of state outside its list alone. -/
theorem effectOf_ensures_keptExcept (i : Instr) (s : State) :
    (effectOf i s).Ensures fun u => KeptExcept s u (writtenParts i) := by
  cases i with
  | seImm | sneImm | seReg | sneReg | jp | jpV0 | sys => exact ensures_writes.mpr (KeptExcept.refl s _)
  | skp | sknp =>
    rw [effectOf, ensures_skipOnKey]
    exact fun _ => KeptExcept.refl s _
  | ldImm | addImm | movReg | orReg | andReg | xorReg | ldXDt =>
    exact ensures_fallThrough.mpr (keptExcept_setReg s _ _)
  | ldXK => exact ensures_waitForKey.mpr ⟨fun _ => KeptExcept.refl s _, fun _ _ => keptExcept_setReg s _ _⟩
  | addReg | subReg | shrReg | subnReg | shlReg => exact ensures_fallThrough.mpr (keptExcept_setRegAndFlag s _ _ _)
  | cls | drw | rnd | call | ret | ldI | addIX | ldFX | ldBX | ldMemX | ldXMem | ldDtX | ldStX | halt =>
    simp [effectOf, writtenParts, keptExcept_iff]

/-- The frame of an instruction that succeeds. -/
theorem exec_keptExcept {i : Instr} {s t : State} (h : exec i s = .next t) : KeptExcept s t (writtenParts i) := by
  obtain ⟨u, n, hu, -, rfl⟩ := exec_next_of_ensures (effectOf_ensures_keptExcept i s) h
  exact fun p hp => Part.kept_commitState.mpr (hu p hp)

/-- Settles O25: the frame as data gives the frame as read. -/
theorem instructionsWriteOnlyTheirListedParts : Obligations.InstructionsWriteOnlyTheirListedParts := by
  intro i s t h p hp
  exact (exec_keptExcept h p hp).same

end Sys2Proof.Machine
end

section
/-! Stores that stay inside Memory and off the glyph table (spec/10_state.md R56; spec/70_reset_and_hazards.md R351): every way the core and the host write Memory. -/

namespace Sys2Proof.Machine

/-- `m'` is `m` with a string of bytes (none, where nothing is stored) written inside Memory and off the glyph table. -/
def ClearStore (m m' : Memory) : Prop :=
  ∃ a bs, m' = m.writeBytes a bs ∧ a + bs.length ≤ memSize ∧ ∀ j, a ≤ j → j < a + bs.length → isGlyphAddr j = false

theorem isGlyphAddr_eq_false {a : Nat} : isGlyphAddr a = false ↔ glyphLen ≤ a := by
  simp [isGlyphAddr, glyphBase]

theorem ClearStore.refl (m : Memory) : ClearStore m m :=
  ⟨0, [], rfl, Nat.zero_le _, fun _ _ h => absurd h (Nat.not_lt_zero _)⟩

theorem ClearStore.writeBytes {m : Memory} {a n : Nat} {bs : List Byte} (hlen : bs.length = n) (hb : a + n ≤ memSize)
    (hg : ∀ j, a ≤ j → j < a + n → isGlyphAddr j = false) : ClearStore m (m.writeBytes a bs) := by
  subst hlen
  exact ⟨a, bs, rfl, hb, hg⟩

/-- Bytes written above the glyph table miss it. -/
theorem ClearStore.writeBytes_above {m : Memory} {a : Nat} {bs : List Byte} (ha : glyphLen ≤ a)
    (hb : a + bs.length ≤ memSize) : ClearStore m (m.writeBytes a bs) :=
  .writeBytes rfl hb fun _ hj _ => isGlyphAddr_eq_false.mpr (Nat.le_trans ha hj)

theorem ClearStore.wf {m m' : Memory} (h : ClearStore m m') (hm : m.wf = true) : m'.wf = true := by
  obtain ⟨a, bs, rfl, hb, -⟩ := h
  exact Memory.wf_writeBytes bs hm hb

/-- A byte of the glyph table lies outside what is stored, so it reads as before, in any memory. -/
theorem ClearStore.read_glyph {m m' : Memory} (h : ClearStore m m') {a : Nat} (ha : isGlyphAddr a = true) :
    m'.read a = m.read a := by
  obtain ⟨b, bs, rfl, -, hg⟩ := h
  refine Memory.read_writeBytes_outside m bs ?_
  by_contra hin
  have := hg a (by omega) (by omega)
  simp [ha] at this

/-- R37, R56: the stack lies above the glyph table. -/
theorem clearStore_stackSlot (s : State) (r : Word) : ClearStore s.mem (s.mem.writeWord s.stackTop r) :=
  .writeBytes_above (by simp only [State.stackTop, stackBase, glyphLen]; omega) s.stackTop_lt

theorem mem_mem_writtenParts {i : Instr} (h : Part.mem ∈ writtenParts i) :
    (∃ nnn, i = .call nnn) ∨ (∃ x, i = .ldBX x) ∨ ∃ x, i = .ldMemX x := by
  cases i <;> simp_all [writtenParts, nativeCallMode]

/-- The only stores are those of CALL, FX33 and FX55, and each is a clear one. -/
theorem effectOf_ensures_clearStore (i : Instr) (s : State) :
    (effectOf i s).Ensures fun u => ClearStore s.mem u.mem := by
  by_cases hm : Part.mem ∈ writtenParts i
  · obtain ⟨nnn, rfl⟩ | ⟨x, rfl⟩ | ⟨x, rfl⟩ := mem_mem_writtenParts hm
    · exact ensures_pushAndGo.mpr fun _ => clearStore_stackSlot s _
    · simp only [effectOf, ensures_checkBounds, ensures_checkGlyph, ensures_fallThrough]
      intro hb hg
      exact .writeBytes (n := 3) rfl (by omega) hg
    · simp only [effectOf, ensures_checkBounds, ensures_checkGlyph, ensures_incIndex]
      intro hb hg _
      exact .writeBytes (s.length_dumpBytes x) (by omega) hg
  · intro u n hu
    have hkept : u.mem = s.mem := effectOf_ensures_keptExcept i s u n hu .mem hm
    exact hkept ▸ ClearStore.refl _

end Sys2Proof.Machine
end

section
/-! The machine invariant: kept by each instruction, by each transaction, and so by every list of them (spec/00_scope.md R8). -/

namespace Sys2Proof.Machine

/-- R37: SP is even and in `0 .. 2*STACK_DEPTH`. -/
def ValidSp (sp : Byte) : Prop := sp.toNat % 2 = 0 ∧ sp.toNat ≤ 2 * stackDepth

theorem ValidSp.add_two {sp : Byte} (h : ValidSp sp) (hfull : sp.toNat ≠ 2 * stackDepth) : ValidSp (sp + 2) := by
  simp only [ValidSp, stackDepth] at *
  bv_omega

theorem ValidSp.sub_two {sp : Byte} (h : ValidSp sp) (hempty : sp.toNat ≠ 0) : ValidSp (sp - 2) := by
  simp only [ValidSp, stackDepth] at *
  bv_omega

theorem sp_mem_writtenParts {i : Instr} (h : Part.sp ∈ writtenParts i) : i = .ret ∨ ∃ nnn, i = .call nnn := by
  cases i <;> simp_all [writtenParts, nativeCallMode]

/-- R38: only CALL and RET write SP, and their checks keep it valid. -/
theorem effectOf_ensures_validSp (i : Instr) {s : State} (h : ValidSp s.sp) :
    (effectOf i s).Ensures fun u => ValidSp u.sp := by
  by_cases hsp : Part.sp ∈ writtenParts i
  · obtain rfl | ⟨nnn, rfl⟩ := sp_mem_writtenParts hsp
    · exact ensures_popAndGo.mpr h.sub_two
    · exact ensures_pushAndGo.mpr h.add_two
  · intro u n hu
    have hkept : u.sp = s.sp := effectOf_ensures_keptExcept i s u n hu .sp hsp
    exact hkept ▸ h

/-- R45: no instruction writes the fault record. -/
theorem fault_notMem_writtenParts (i : Instr) : Part.fault ∉ writtenParts i := by
  cases i <;> simp [writtenParts, nativeCallMode]

theorem State.Inv.validSp {s : State} (h : s.Inv) : ValidSp s.sp := ⟨h.spEven, h.spBound⟩

/-- A running core that meets the invariant holds no fault record. -/
theorem State.Inv.fault_eq_none {s : State} (h : s.Inv) (hrun : s.running = true) : s.fault = none := by
  cases hf : s.fault with
  | none => rfl
  | some f => simpa [hrun] using h.faultStops (by simp [hf])

/-- What a change of state has to respect for the invariant to survive it. -/
theorem State.Inv.of_clearStore {s t : State} (h : s.Inv) (hmem : ClearStore s.mem t.mem) (hpc : t.pc.toNat < memSize)
    (hsp : ValidSp t.sp) (hfault : t.fault.isSome = true → t.running = false) : t.Inv where
  memWf := hmem.wf h.memWf
  glyphs := fun a ha => (hmem.read_glyph ha).trans (h.glyphs a ha)
  pcInRange := hpc
  spEven := hsp.1
  spBound := hsp.2
  faultStops := hfault

/-- The invariant speaks of Memory, PC, SP, `fault` and `running` alone. -/
theorem State.Inv.congr {s t : State} (h : s.Inv) (hmem : t.mem = s.mem) (hpc : t.pc = s.pc) (hsp : t.sp = s.sp)
    (hfault : t.fault = s.fault) (hrun : t.running = s.running) : t.Inv :=
  h.of_clearStore (hmem ▸ ClearStore.refl _) (hpc ▸ h.pcInRange) (hsp ▸ h.validSp) (hfault ▸ hrun ▸ h.faultStops)

/-- An instruction that succeeds on a running core keeps the invariant. -/
theorem State.Inv.exec_next {i : Instr} {s t : State} (h : s.Inv) (hrun : s.running = true) (he : exec i s = .next t) :
    t.Inv := by
  have hfault : t.fault = none := (exec_keptExcept he .fault (fault_notMem_writtenParts i)).trans (h.fault_eq_none hrun)
  obtain ⟨u, n, hu, hn, rfl⟩ := exec_eq_next.mp he
  refine h.of_clearStore ?_ ?_ ?_ ?_
  · exact effectOf_ensures_clearStore i s u n hu
  · rwa [commitState_pc_toNat u hn]
  · exact effectOf_ensures_validSp i h.validSp u n hu
  · intro hsome
    rw [hfault] at hsome
    cases hsome

/-- A step that succeeds keeps the invariant. -/
theorem State.Inv.step_next {s t : State} (h : s.Inv) (hs : step s = .next t) : t.Inv := by
  obtain ⟨hrun, w, i, -, -, he⟩ := step_eq_next.mp hs
  exact h.exec_next hrun he

/-- A step as the host sees it, whether it succeeds, faults or is refused, keeps the invariant. -/
theorem State.Inv.stepTransaction {s : State} (h : s.Inv) : (stepTransaction s).1.Inv := by
  unfold Machine.stepTransaction
  split
  next t hs => exact h.step_next hs
  next f _ => exact h.of_clearStore (.refl _) h.pcInRange h.validSp fun _ => s.takeFault_running f
  next => exact h

theorem State.load_eq_some {s t : State} {image : List Byte} :
    s.load image = some t ↔ image.length ≤ progWindow ∧ t = { s with mem := s.mem.writeBytes progOffset image } := by
  simp [State.load, eq_comm]

/-- R56, R352: the program window lies above the glyph table. -/
theorem State.Inv.load {s t : State} {image : List Byte} (h : s.Inv) (hl : s.load image = some t) : t.Inv := by
  obtain ⟨hlen, rfl⟩ := State.load_eq_some.mp hl
  refine h.of_clearStore (.writeBytes_above (by decide) ?_) h.pcInRange h.validSp h.faultStops
  simp only [progWindow, reservedBase, progOffset, memSize] at *
  omega

/-- R354: the host's reset leaves Memory alone and puts PC, SP and `fault` where the invariant wants them. -/
theorem State.Inv.hostReset {s : State} (h : s.Inv) : s.hostReset.Inv := by
  refine h.of_clearStore (.refl _) ?_ ?_ ?_
  · rw [State.hostReset_pc]
    decide
  · simp [ValidSp]
  · simp

/-- Every transaction keeps the invariant. -/
theorem State.Inv.transact {s : State} (h : s.Inv) (tr : Transaction) : (transact s tr).1.Inv := by
  cases tr with
  | step => exact h.stepTransaction
  | load image =>
    simp only [Machine.transact]
    split
    next t hl => exact h.load hl
    next => exact h
  | reset => exact h.hostReset
  | keyDown k | keyUp k | decTimers | clearDraw => exact h.congr rfl rfl rfl rfl rfl

/-- Settles O16, by induction on the list of transactions. -/
theorem everyInterleavingKeepsTheMachineInvariant : Obligations.EveryInterleavingKeepsTheMachineInvariant := by
  intro s ts h
  induction ts generalizing s with
  | nil => exact h
  | cons tr ts ih => exact ih _ (h.transact tr)

end Sys2Proof.Machine
end

section
/-! Settles the statements about the invariant's base case and about one step of it: both are read off the development of the invariant above. -/

namespace Sys2Proof.Machine

/-- Settles O14, by the step lemma of the invariant. -/
theorem stepKeepsTheMachineInvariant : Obligations.StepKeepsTheMachineInvariant :=
  fun _ _ h hs => h.step_next hs

/-- Settles O15: Memory lists no byte at construction (R55, R56), so the glyph table reads as the glyph data. -/
theorem resetMeetsTheMachineInvariant : Obligations.ResetMeetsTheMachineInvariant where
  memWf := rfl
  glyphs := fun _ _ => rfl
  pcInRange := by decide
  spEven := rfl
  spBound := Nat.zero_le _
  faultStops := fun h => nomatch h

end Sys2Proof.Machine
end

section
/-! What a step and a transaction can change (spec/10_state.md R48): a piece of state that differs after a transaction is one the transaction itself writes, or one that the instruction its step executes lists. -/

namespace Sys2Proof.Machine

/-- What every commit of an instruction's effect has, the instruction's next state has. -/
theorem exec_next_of_ensures_commit {P : State → Prop} {i : Instr} {s t : State}
    (h : exec i s = .next t) (hP : (effectOf i s).Ensures fun u => ∀ n, P (commitState u n)) : P t := by
  obtain ⟨u, n, hu, -, rfl⟩ := exec_next_of_ensures hP h
  exact hu n

/-- A step that succeeds executes the instruction at PC. -/
theorem step_next_exec {s t : State} (h : step s = .next t) :
    ∃ i, s.fetchWord.bind decode = some i ∧ exec i s = .next t := by
  obtain ⟨-, w, i, hw, hi, he⟩ := step_eq_next.mp h
  exact ⟨i, by simp [hw, hi], he⟩

/-- A piece of state that differs after a step that succeeds is one that the instruction at PC lists. -/
theorem step_next_writes {p : Part} {s t : State} (h : step s = .next t) (hp : ¬ p.Kept s t) :
    ∃ i, s.fetchWord.bind decode = some i ∧ p ∈ writtenParts i ∧ exec i s = .next t := by
  obtain ⟨i, hi, he⟩ := step_next_exec h
  exact ⟨i, hi, by_contra fun hmem => hp (exec_keptExcept he p hmem), he⟩

/-- R140, R141, R146: the three ways a step ends, as the host sees them. -/
theorem stepTransaction_cases (s : State) :
    (∃ t, step s = .next t ∧ stepTransaction s = (t, .ok)) ∨
    (∃ f, step s = .fault f ∧ stepTransaction s = (s.takeFault f, .fault f)) ∨
    (s.running = false ∧ stepTransaction s = (s, .stopped)) := by
  rw [stepTransaction]
  cases hs : step s with
  | next t => exact .inl ⟨t, rfl, rfl⟩
  | fault f => exact .inr (.inl ⟨f, rfl, rfl⟩)
  | refused r => exact .inr (.inr ⟨(step_eq_refused.mp hs).1, rfl⟩)

/-- The pieces of state a transaction writes of its own: a host operation what its rule lists, a step what a fault writes
(R146), which leaves out what the instruction at PC lists. -/
def Transaction.ownParts : Transaction → List Part
  | .step => [.running, .fault]
  | .load _ => [.mem]
  | .reset => [.regs, .i, .sp, .dt, .st, .running, .fault]
  | .keyDown _ | .keyUp _ => [.keys]
  | .decTimers => [.dt, .st, .tone]
  | .clearDraw => [.draw]

theorem keptExcept_takeFault (s : State) (f : Fault) : KeptExcept s (s.takeFault f) Transaction.step.ownParts := by
  simp [keptExcept_iff, Transaction.ownParts]

/-- A host operation writes its own pieces of state only. -/
theorem transact_keptExcept {s : State} {tr : Transaction} (htr : tr ≠ .step) :
    KeptExcept s (transact s tr).1 tr.ownParts := by
  cases tr with
  | step => exact absurd rfl htr
  | load image =>
    simp only [transact]
    split
    next t hl =>
      obtain ⟨-, rfl⟩ := State.load_eq_some.mp hl
      simp [keptExcept_iff, Transaction.ownParts]
    next => exact .refl _ _
  | reset | keyDown | keyUp | decTimers | clearDraw => simp [transact, keptExcept_iff, Transaction.ownParts]

/-- R48: a piece of state that differs after a transaction is one the transaction itself writes, or the transaction is a step
that succeeds and the instruction at PC lists the piece. -/
theorem transact_writes {p : Part} {s : State} {tr : Transaction} (hp : ¬ p.Kept s (transact s tr).1) :
    p ∈ tr.ownParts ∨ tr = .step ∧ ∃ i, s.fetchWord.bind decode = some i ∧ p ∈ writtenParts i ∧
      exec i s = .next (transact s tr).1 := by
  by_cases htr : tr = .step
  · subst htr
    rw [transact] at hp ⊢
    obtain ⟨t, hs, ht⟩ | ⟨f, -, ht⟩ | ⟨-, ht⟩ := stepTransaction_cases s
    · rw [ht] at hp ⊢
      exact .inr ⟨rfl, step_next_writes hs hp⟩
    · rw [ht] at hp
      exact .inl (by_contra fun hmem => hp (keptExcept_takeFault s f p hmem))
    · rw [ht] at hp
      exact absurd (KeptExcept.refl s [] p List.not_mem_nil) hp
  · exact .inl (by_contra fun hmem => hp (transact_keptExcept htr p hmem))

end Sys2Proof.Machine
end

section
/-! Who writes the latch, the timers and the stack pointer (spec/10_state.md R38 to R40). -/

namespace Sys2Proof.Machine

/-- R40: no instruction writes the input latch. -/
theorem keys_notMem_writtenParts (i : Instr) : Part.keys ∉ writtenParts i := by
  cases i <;> simp [writtenParts, nativeCallMode]

theorem Transaction.keys_mem_ownParts {tr : Transaction} (h : Part.keys ∈ tr.ownParts) :
    ∃ k, tr = .keyDown k ∨ tr = .keyUp k := by
  cases tr <;> simp_all [ownParts]

/-- Settles O18: no instruction lists KEYS, and of the host operations only the key events do. -/
theorem onlyKeyEventsChangeTheLatch : Obligations.OnlyKeyEventsChangeTheLatch := by
  intro s tr h
  obtain hown | ⟨-, i, -, hi, -⟩ := transact_writes (p := .keys) h
  · exact Transaction.keys_mem_ownParts hown
  · exact absurd hi (keys_notMem_writtenParts i)

theorem dt_mem_writtenParts {i : Instr} (h : Part.dt ∈ writtenParts i) : ∃ x, i = .ldDtX x := by
  cases i <;> simp_all [writtenParts, nativeCallMode]

theorem st_mem_writtenParts {i : Instr} (h : Part.st ∈ writtenParts i) : ∃ x, i = .ldStX x := by
  cases i <;> simp_all [writtenParts, nativeCallMode]

theorem exec_ldDtX_dt {x : Reg} {s t : State} (h : exec (.ldDtX x) s = .next t) : t.dt = s.reg x :=
  exec_next_of_ensures_commit (P := fun t => t.dt = s.reg x) h (ensures_fallThrough.mpr fun _ => rfl)

theorem exec_ldStX_st {x : Reg} {s t : State} (h : exec (.ldStX x) s = .next t) : t.st = s.reg x :=
  exec_next_of_ensures_commit (P := fun t => t.st = s.reg x) h (ensures_fallThrough.mpr fun _ => rfl)

/-- Settles O19: FX15 and FX18 are the only instructions that list DT and ST. -/
theorem stepChangesTimersOnlyByTheirLoads : Obligations.StepChangesTimersOnlyByTheirLoads := by
  intro s t h
  constructor
  · intro hdt
    obtain ⟨i, hi, hmem, he⟩ := step_next_writes (p := .dt) h hdt
    obtain ⟨x, rfl⟩ := dt_mem_writtenParts hmem
    exact ⟨x, hi, exec_ldDtX_dt he⟩
  · intro hst
    obtain ⟨i, hi, hmem, he⟩ := step_next_writes (p := .st) h hst
    obtain ⟨x, rfl⟩ := st_mem_writtenParts hmem
    exact ⟨x, hi, exec_ldStX_st he⟩

theorem exec_call_sp {nnn : Addr12} {s t : State} (h : exec (.call nnn) s = .next t) : t.sp = s.sp + 2 :=
  exec_next_of_ensures_commit (P := fun t => t.sp = s.sp + 2) h (ensures_pushAndGo.mpr fun _ _ => rfl)

theorem exec_ret_sp {s t : State} (h : exec .ret s = .next t) : t.sp = s.sp - 2 :=
  exec_next_of_ensures_commit (P := fun t => t.sp = s.sp - 2) h (ensures_popAndGo.mpr fun _ _ => rfl)

/-- Settles O22: CALL and RET are the only instructions that list SP. -/
theorem stackPointerMovesOnlyByCallAndReturn : Obligations.StackPointerMovesOnlyByCallAndReturn := by
  intro s t h hsp
  obtain ⟨i, hi, hmem, he⟩ := step_next_writes (p := .sp) h hsp
  obtain rfl | ⟨nnn, rfl⟩ := sp_mem_writtenParts hmem
  · exact .inr ⟨hi, exec_ret_sp he⟩
  · exact .inl ⟨nnn, hi, exec_call_sp he⟩

end Sys2Proof.Machine
end

section
/-! Who writes the framebuffer and its dirty flag, and how the host reads the cells (spec/10_state.md R41, R42). -/

namespace Sys2Proof.Machine

theorem fb_mem_writtenParts {i : Instr} (h : Part.fb ∈ writtenParts i) : i = .cls ∨ ∃ x y n, i = .drw x y n := by
  cases i <;> simp_all [writtenParts, nativeCallMode]

theorem draw_mem_writtenParts {i : Instr} (h : Part.draw ∈ writtenParts i) : i = .cls ∨ ∃ x y n, i = .drw x y n := by
  cases i <;> simp_all [writtenParts, nativeCallMode]

theorem Transaction.fb_notMem_ownParts (tr : Transaction) : Part.fb ∉ tr.ownParts := by
  cases tr <;> simp [ownParts]

theorem Transaction.draw_mem_ownParts {tr : Transaction} (h : Part.draw ∈ tr.ownParts) : tr = .clearDraw := by
  cases tr <;> simp_all [ownParts]

/-- Settles O20: CLS and DRW are the only instructions that list FB, and no host operation does. -/
theorem onlyClsAndDrwWriteTheFramebuffer : Obligations.OnlyClsAndDrwWriteTheFramebuffer := by
  intro s tr c hc
  obtain hown | ⟨htr, i, hi, hmem, -⟩ := transact_writes (p := .fb) fun hkept => hc (congrArg (Framebuffer.lit · c) hkept)
  · exact absurd hown tr.fb_notMem_ownParts
  · rw [hi]
    obtain rfl | ⟨x, y, n, rfl⟩ := fb_mem_writtenParts hmem
    · exact ⟨htr, .inl rfl⟩
    · exact ⟨htr, .inr ⟨x, y, n, rfl⟩⟩

/-- R270, R271: CLS and DRW set the dirty flag whenever they succeed. -/
theorem exec_draw_eq_true {i : Instr} {s t : State} (hi : i = .cls ∨ ∃ x y n, i = .drw x y n) (h : exec i s = .next t) :
    t.draw = true := by
  refine exec_next_of_ensures_commit (P := fun t => t.draw = true) h ?_
  obtain rfl | ⟨x, y, n, rfl⟩ := hi
  · exact ensures_fallThrough.mpr fun _ => rfl
  · exact ensures_checkBounds.mpr fun _ => ensures_fallThrough.mpr fun _ => rfl

/-- A transaction that changes the dirty flag is `clear_draw`, or a step at a CLS or DRW, which sets it. -/
theorem transact_draw_ne {s : State} {tr : Transaction} (h : (transact s tr).1.draw ≠ s.draw) :
    tr = .clearDraw ∨ tr = .step ∧ (transact s tr).1.draw = true ∧
      (s.fetchWord.bind decode = some .cls ∨ ∃ x y n, s.fetchWord.bind decode = some (.drw x y n)) := by
  obtain hown | ⟨htr, i, hi, hmem, he⟩ := transact_writes (p := .draw) h
  · exact .inl (Transaction.draw_mem_ownParts hown)
  · have hdraw := draw_mem_writtenParts hmem
    refine .inr ⟨htr, exec_draw_eq_true hdraw he, ?_⟩
    rw [hi]
    simpa using hdraw

/-- Settles O21: the step clause from the two drawing instructions, the others from who can change the flag. -/
theorem dirtyFlagIsSetByDrawingAndClearedByTheHost : Obligations.DirtyFlagIsSetByDrawingAndClearedByTheHost := by
  refine ⟨fun s t h hat => ?_, fun s tr hclear hset => ?_, fun s tr hset => ⟨fun hclear => ?_, ?_⟩⟩
  · obtain ⟨i, hi, he⟩ := step_next_exec h
    rw [hi] at hat
    exact exec_draw_eq_true (by simpa using hat) he
  · obtain rfl | ⟨htr, -, hat⟩ := transact_draw_ne (s := s) (tr := tr) (by simp [hclear, hset])
    · cases hset
    · exact ⟨htr, hat⟩
  · obtain htr | ⟨-, hdraw, -⟩ := transact_draw_ne (s := s) (tr := tr) (by simp [hclear, hset])
    · exact htr
    · simp [hclear] at hdraw
  · rintro rfl
    exact s.clearDraw_draw

/-- D22: the host's bytes are the rows of cell bytes laid end to end. -/
theorem State.hostFramebuffer_eq_flatten (s : State) :
    s.hostFramebuffer = (s.fb.map (·.map cellByte)).flatten.toList := by
  simp [hostFramebuffer, Vector.flatten, Vector.toList, Function.comp_def]

/-- Settles O59: byte `y*64 + x` of the rows laid end to end is byte `x` of row `y`. -/
theorem hostSeesCellsRowMajor : Obligations.HostSeesCellsRowMajor := by
  intro s
  rw [State.outputs, State.hostFramebuffer_eq_flatten]
  refine ⟨Vector.length_toList, fun ⟨x, y⟩ => ?_⟩
  have hidx : y.val * 64 + x.val < 32 * 64 := by omega
  have hrow : (y.val * 64 + x.val) / 64 = y := by omega
  have hcol : (y.val * 64 + x.val) % 64 = x := by omega
  rw [Vector.getElem?_toList, Vector.getElem?_eq_getElem hidx, Vector.getElem_flatten hidx]
  simp only [Vector.getElem_map, hrow, hcol]
  rfl

end Sys2Proof.Machine
end

section
/-! What stops and starts the core, and the cycle counter (spec/10_state.md R43, R44, R47). -/

namespace Sys2Proof.Machine

theorem running_mem_writtenParts {i : Instr} (h : Part.running ∈ writtenParts i) : i = .halt := by
  cases i <;> simp_all [writtenParts, nativeCallMode]

theorem Transaction.running_mem_ownParts {tr : Transaction} (h : Part.running ∈ tr.ownParts) : tr = .step ∨ tr = .reset := by
  cases tr <;> simp_all [ownParts]

/-- A step transaction that stops a running core is one at a HALT that succeeds, or one that faults. -/
theorem stepTransaction_stops {s : State} (hrun : s.running = true) (hstop : (stepTransaction s).1.running = false) :
    (s.fetchWord.bind decode = some .halt ∧ (stepTransaction s).2 = .ok) ∨ ∃ f, (stepTransaction s).2 = .fault f := by
  obtain ⟨t, hs, ht⟩ | ⟨f, -, ht⟩ | ⟨hstopped, -⟩ := stepTransaction_cases s
  · rw [ht] at hstop ⊢
    have hchanged : t.running ≠ s.running := by simpa [hrun] using hstop
    obtain ⟨i, hi, hmem, -⟩ := step_next_writes (p := .running) hs hchanged
    exact .inl ⟨running_mem_writtenParts hmem ▸ hi, rfl⟩
  · exact .inr ⟨f, by rw [ht]⟩
  · simp [hrun] at hstopped

/-- R141: a step of a stopped core changes nothing. -/
theorem stepTransaction_of_stopped {s : State} (h : s.running = false) : stepTransaction s = (s, .stopped) := by
  rw [stepTransaction, step_eq_refused.mpr ⟨h, rfl⟩]

/-- Settles O23: of the host operations only `reset` writes `running`, and it starts the core. -/
theorem onlyHaltAndFaultsStopAndOnlyResetStarts : Obligations.OnlyHaltAndFaultsStopAndOnlyResetStarts := by
  intro s tr
  by_cases htr : tr = .step
  · subst htr
    refine ⟨fun hrun hstop => ⟨rfl, stepTransaction_stops hrun hstop⟩, fun hstopped hstart => ?_⟩
    rw [transact, stepTransaction_of_stopped hstopped, hstopped] at hstart
    cases hstart
  · have hreset : (transact s tr).1.running ≠ s.running → tr = .reset := fun hne =>
      (Transaction.running_mem_ownParts (by_contra fun hmem => hne (transact_keptExcept htr .running hmem))).resolve_left htr
    refine ⟨fun hrun hstop => ?_, fun hstopped hstart => hreset (by simp [hstopped, hstart])⟩
    obtain rfl := hreset (by simp [hrun, hstop])
    cases hstop

/-- No instruction's own writes touch `cycles`: the commit counts (R145). -/
theorem effectOf_ensures_cycles (i : Instr) (s : State) : (effectOf i s).Ensures fun u => u.cycles = s.cycles := by
  cases i <;> simp [effectOf, nativeCall, nativeCallMode]

theorem exec_next_cycles {i : Instr} {s t : State} (h : exec i s = .next t) : t.cycles = s.cycles + 1 := by
  obtain ⟨u, n, hu, -, rfl⟩ := exec_next_of_ensures (effectOf_ensures_cycles i s) h
  rw [commitState_cycles, hu]

theorem transact_cycles_of_ne_step {s : State} {tr : Transaction} (htr : tr ≠ .step) :
    (transact s tr).1.cycles = s.cycles := by
  cases tr with
  | step => exact absurd rfl htr
  | load image =>
    simp only [transact]
    split
    next t hl =>
      obtain ⟨-, rfl⟩ := State.load_eq_some.mp hl
      rfl
    next => rfl
  | reset | keyDown | keyUp | decTimers | clearDraw => rfl

/-- Settles O24: a step counts once, in its commit. -/
theorem cyclesCountSuccessfulSteps : Obligations.CyclesCountSuccessfulSteps := by
  intro s tr
  by_cases htr : tr = .step
  · subst htr
    rw [transact]
    obtain ⟨t, hs, ht⟩ | ⟨f, -, ht⟩ | ⟨-, ht⟩ := stepTransaction_cases s <;> rw [ht]
    · obtain ⟨i, -, he⟩ := step_next_exec hs
      simpa using exec_next_cycles he
    · simp
    · simp
  · rw [transact_cycles_of_ne_step htr, if_neg fun h => htr h.1]

end Sys2Proof.Machine
end

section
/-! The general registers each instruction writes (spec/10_state.md R32). -/

namespace Sys2Proof.Machine

/-- An instruction whose rule lists no register leaves all of them alone. -/
theorem RegsUnchangedExcept.of_v_eq {s t : State} {rs : List Reg} (h : t.v = s.v) : RegsUnchangedExcept s t rs :=
  fun r _ => State.reg_congr h r

theorem regsUnchangedExcept_setReg (s : State) (x : Reg) (b : Byte) : RegsUnchangedExcept s (s.setReg x b) [x] := by
  intro r hr
  rw [State.reg_setReg, if_neg (by simpa using hr)]

theorem regsUnchangedExcept_setRegAndFlag (s : State) (x : Reg) (b : Byte) (f : Bool) :
    RegsUnchangedExcept s (s.setRegAndFlag x b f) [x, VF] := by
  intro r hr
  obtain ⟨hx, hvf⟩ : r ≠ x ∧ r ≠ VF := by simpa using hr
  rw [State.reg_setRegAndFlag, if_neg hvf, if_neg hx]

theorem regsUnchangedExcept_drawSprite (s : State) (e : DrawEdge) (x y : Reg) (rows : List Byte) :
    RegsUnchangedExcept s (s.drawSprite e x y rows) [VF] :=
  regsUnchangedExcept_setReg _ VF _

theorem regsUnchangedExcept_loadRegs (s : State) (x : Reg) : RegsUnchangedExcept s (s.loadRegs x) (regsUpTo x) := by
  intro r hr
  rw [State.reg_loadRegs, if_neg (by rwa [mem_regsUpTo] at hr)]

/-- R32, D40: the writes of an instruction's rule leave every register outside its list alone. -/
theorem effectOf_ensures_regsUnchangedExcept (i : Instr) (s : State) :
    (effectOf i s).Ensures fun u => RegsUnchangedExcept s u (writtenRegs i) := by
  by_cases hregs : Part.regs ∈ writtenParts i
  · cases i with
    | ldImm | addImm | movReg | orReg | andReg | xorReg | ldXDt =>
      exact ensures_fallThrough.mpr (regsUnchangedExcept_setReg s _ _)
    | rnd x nn => exact ensures_fallThrough.mpr (regsUnchangedExcept_setReg s.drawRnd _ _)
    | addReg | subReg | shrReg | subnReg | shlReg =>
      exact ensures_fallThrough.mpr (regsUnchangedExcept_setRegAndFlag s _ _ _)
    | drw x y n =>
      exact ensures_checkBounds.mpr fun _ => ensures_fallThrough.mpr (regsUnchangedExcept_drawSprite s _ _ _ _)
    | ldXK x => exact ensures_waitForKey.mpr ⟨fun _ => .of_v_eq rfl, fun _ _ => regsUnchangedExcept_setReg s _ _⟩
    | ldXMem x =>
      exact ensures_checkBounds.mpr fun _ => ensures_incIndex.mpr fun _ => regsUnchangedExcept_loadRegs s x
    | _ => simp [writtenParts, nativeCallMode] at hregs
  · exact fun u n hu => .of_v_eq (effectOf_ensures_keptExcept i s u n hu .regs hregs)

/-- Settles O26: the commit writes no general register. -/
theorem instructionsWriteOnlyTheirListedRegisters : Obligations.InstructionsWriteOnlyTheirListedRegisters := by
  intro i s t h
  obtain ⟨u, n, hu, -, rfl⟩ := exec_next_of_ensures (effectOf_ensures_regsUnchangedExcept i s) h
  exact hu

end Sys2Proof.Machine
end

section
/-! The bytes of Memory each instruction stores (spec/20_memory.md R72), and their fetch as code (R85). -/

namespace Sys2Proof.Machine

/-- A string of bytes stored at an address changes no other byte. -/
theorem memUnchangedOutside_of_writeBytes {s t : State} {a n : Nat} {bs : List Byte} (hlen : bs.length = n)
    (h : t.mem = s.mem.writeBytes a bs) : MemUnchangedOutside s t a n := by
  intro b hb
  rw [h]
  exact Memory.read_writeBytes_outside s.mem bs (hlen ▸ hb)

/-- R72, D40: the writes of an instruction's rule leave every byte outside the range it stores alone. -/
theorem effectOf_ensures_memUnchangedOutside (i : Instr) (s : State) :
    (effectOf i s).Ensures fun u => MemUnchangedOutside s u (storedRange i s).1 (storedRange i s).2 := by
  by_cases hm : Part.mem ∈ writtenParts i
  · obtain ⟨nnn, rfl⟩ | ⟨x, rfl⟩ | ⟨x, rfl⟩ := mem_mem_writtenParts hm
    · exact ensures_pushAndGo.mpr fun _ => memUnchangedOutside_of_writeBytes rfl rfl
    · exact ensures_checkBounds.mpr fun _ => ensures_checkGlyph.mpr fun _ => ensures_fallThrough.mpr <|
        memUnchangedOutside_of_writeBytes rfl rfl
    · exact ensures_checkBounds.mpr fun _ => ensures_checkGlyph.mpr fun _ => ensures_incIndex.mpr fun _ =>
        memUnchangedOutside_of_writeBytes (s.length_dumpBytes x) rfl
  · intro u n hu b _
    have hkept : u.mem = s.mem := effectOf_ensures_keptExcept i s u n hu .mem hm
    rw [hkept]

/-- Settles O27: the commit writes no byte of Memory. -/
theorem instructionsStoreOnlyToTheirBytes : Obligations.InstructionsStoreOnlyToTheirBytes := by
  intro i s t h
  obtain ⟨u, n, hu, -, rfl⟩ := exec_next_of_ensures (effectOf_ensures_memUnchangedOutside i s) h
  exact hu

/-- R248: an FX55 that succeeds has stored `V0..VX` from I on, inside Memory. -/
theorem exec_ldMemX_mem {x : Reg} {s t : State} (h : exec (.ldMemX x) s = .next t) :
    s.i.toNat + x.val + 1 ≤ memSize ∧ t.mem = s.mem.writeBytes s.i.toNat (s.dumpBytes x) := by
  have hstore : (effectOf (.ldMemX x) s).Ensures fun u =>
      s.i.toNat + x.val + 1 ≤ memSize ∧ u.mem = s.mem.writeBytes s.i.toNat (s.dumpBytes x) := by
    refine ensures_checkBounds.mpr fun hb => ensures_checkGlyph.mpr fun _ => ensures_incIndex.mpr fun _ => ⟨?_, rfl⟩
    simp only [State.ea] at hb
    omega
  obtain ⟨u, n, hu, -, rfl⟩ := exec_next_of_ensures hstore h
  exact hu

/-- R248: byte `I + r` of Memory then reads as `V[r]`, for each register up to VX. -/
theorem exec_ldMemX_read {x r : Reg} {s t : State} (hm : s.mem.wf = true) (h : exec (.ldMemX x) s = .next t)
    (hr : r ≤ x) : t.mem.read (s.i.toNat + r.val) = s.reg r := by
  obtain ⟨hb, hmem⟩ := exec_ldMemX_mem h
  have hlen := s.length_dumpBytes x
  have hlt : r.val < (s.dumpBytes x).length := by rw [hlen]; exact Nat.lt_succ_of_le hr
  rw [hmem, Memory.read_writeBytes_inside hm _ hlt (hlen ▸ hb), State.getElem_dumpBytes s x r.val hlt r.isLt]

/-- R142: where both bytes at PC lie in Memory, the fetch reads them as one word. -/
theorem State.fetchWord_of_lt {s : State} (h : s.pc.toNat + 1 < memSize) :
    s.fetchWord = some (s.mem.readWord s.pc.toNat) := if_pos h

/-- Settles O54: both bytes at the next PC are bytes FX55 has just stored, so they lie in Memory and read as Vj and Vk. -/
theorem storedBytesAreFetchedNext : Obligations.StoredBytesAreFetchedNext := by
  intro x s t j k hm h hkx hk hpc
  obtain ⟨hb, -⟩ := exec_ldMemX_mem h
  have hpc' : t.pc.toNat + 1 = s.i.toNat + k.val := by omega
  have hkv : k.val ≤ x.val := hkx
  have hjx : j ≤ x := Fin.le_def.mpr (by omega)
  refine ⟨_, t.fetchWord_of_lt (by omega), ?_⟩
  rw [Memory.readWord, wordOfBytes_toNat, hpc', hpc, exec_ldMemX_read hm h hjx, exec_ldMemX_read hm h hkx]

end Sys2Proof.Machine
end

section
/-! R104's table as a relation between words and what they decode to (spec/30_encoding.md R103 to R107): one row per
operation class, its word laid out in its format. `decode` answers exactly what the row of a word says. -/

namespace Sys2Proof

/-- R104 read as a table. The formats and the sub-operations' selectors are those of R103. -/
inductive ClassRow : Word → Option Instr → Prop
  | class0 (nnn : Addr12) : ClassRow (layoutFA 0x0#4 nnn) (decodeClass0 (layoutFA 0x0#4 nnn))
  | class1 (nnn : Addr12) : ClassRow (layoutFA 0x1#4 nnn) (some (.jp nnn))
  | class2 (nnn : Addr12) : ClassRow (layoutFA 0x2#4 nnn) (some (.call nnn))
  | class3 (x : Reg) (nn : Byte) : ClassRow (layoutFXI 0x3#4 x nn) (some (.seImm x nn))
  | class4 (x : Reg) (nn : Byte) : ClassRow (layoutFXI 0x4#4 x nn) (some (.sneImm x nn))
  | class5 (x y : Reg) (n : Nibble) : ClassRow (layoutFXYN 0x5#4 x y n) (if n = 0x0#4 then some (.seReg x y) else none)
  | class6 (x : Reg) (nn : Byte) : ClassRow (layoutFXI 0x6#4 x nn) (some (.ldImm x nn))
  | class7 (x : Reg) (nn : Byte) : ClassRow (layoutFXI 0x7#4 x nn) (some (.addImm x nn))
  | class8 (x y : Reg) (n : Nibble) : ClassRow (layoutFXYN 0x8#4 x y n) (decodeClass8 x y n)
  | class9 (x y : Reg) (n : Nibble) : ClassRow (layoutFXYN 0x9#4 x y n) (if n = 0x0#4 then some (.sneReg x y) else none)
  | classA (nnn : Addr12) : ClassRow (layoutFA 0xA#4 nnn) (some (.ldI nnn))
  | classB (nnn : Addr12) : ClassRow (layoutFA 0xB#4 nnn) (some (.jpV0 nnn))
  | classC (x : Reg) (nn : Byte) : ClassRow (layoutFXI 0xC#4 x nn) (some (.rnd x nn))
  | classD (x y : Reg) (n : Nibble) : ClassRow (layoutFXYN 0xD#4 x y n) (some (.drw x y n))
  | classE (x : Reg) (nn : Byte) : ClassRow (layoutFXI 0xE#4 x nn) (decodeClassE x nn)
  | classF (x : Reg) (nn : Byte) : ClassRow (layoutFXI 0xF#4 x nn) (decodeClassF x nn)

/-- The decoder gives every row its answer: it reads back the class and the fields the row's format was laid out with. -/
theorem ClassRow.decode_eq {w : Word} {r : Option Instr} (h : ClassRow w r) : decode w = r := by
  cases h with
  | class0 | class1 | class2 | classA | classB => simp [decode, classField_layoutFA, nnnField_layoutFA]
  | class3 | class4 | class6 | class7 | classC | classE | classF =>
    simp [decode, classField_layoutFXI, xField_layoutFXI, nnField_layoutFXI]
  | class5 | class8 | class9 | classD =>
    simp [decode, classField_layoutFXYN, xField_layoutFXYN, yField_layoutFXYN, nField_layoutFXYN]

/-- Every word is in some row: it is laid out from its own fields in the format of its class. -/
theorem exists_classRow (w : Word) : ∃ r, ClassRow w r := by
  have hFA := word_eq_layoutFA w
  have hFXI := word_eq_layoutFXI w
  have hFXYN := word_eq_layoutFXYN w
  generalize classField w = c at hFA hFXI hFXYN
  obtain ⟨k, hk⟩ := c
  interval_cases k
  · rw [hFA]; exact ⟨_, .class0 _⟩
  · rw [hFA]; exact ⟨_, .class1 _⟩
  · rw [hFA]; exact ⟨_, .class2 _⟩
  · rw [hFXI]; exact ⟨_, .class3 _ _⟩
  · rw [hFXI]; exact ⟨_, .class4 _ _⟩
  · rw [hFXYN]; exact ⟨_, .class5 _ _ _⟩
  · rw [hFXI]; exact ⟨_, .class6 _ _⟩
  · rw [hFXI]; exact ⟨_, .class7 _ _⟩
  · rw [hFXYN]; exact ⟨_, .class8 _ _ _⟩
  · rw [hFXYN]; exact ⟨_, .class9 _ _ _⟩
  · rw [hFA]; exact ⟨_, .classA _⟩
  · rw [hFA]; exact ⟨_, .classB _⟩
  · rw [hFXI]; exact ⟨_, .classC _ _⟩
  · rw [hFXYN]; exact ⟨_, .classD _ _ _⟩
  · rw [hFXI]; exact ⟨_, .classE _ _⟩
  · rw [hFXI]; exact ⟨_, .classF _ _⟩

/-- The decoder is R104's table. -/
theorem decode_eq_iff {w : Word} {r : Option Instr} : decode w = r ↔ ClassRow w r := by
  refine ⟨fun h => ?_, ClassRow.decode_eq⟩
  obtain ⟨r', hrow⟩ := exists_classRow w
  rwa [← h, hrow.decode_eq]

/-- R105: a class-0 word that is neither CLS's nor RET's is SYS's, with its low 12 bits. -/
theorem decodeClass0_eq_sys {nnn : Addr12} (hcls : nnn ≠ 0x0E0#12) (hret : nnn ≠ 0x0EE#12) :
    decodeClass0 (layoutFA 0x0#4 nnn) = some (.sys nnn) := by
  have hcls' : layoutFA 0x0#4 nnn ≠ 0x00E0#16 := fun h => hcls (by rw [← nnnField_layoutFA 0x0#4 nnn, h]; rfl)
  have hret' : layoutFA 0x0#4 nnn ≠ 0x00EE#16 := fun h => hret (by rw [← nnnField_layoutFA 0x0#4 nnn, h]; rfl)
  rw [decodeClass0, if_neg hcls', if_neg hret', nnnField_layoutFA]

/-! ## Decode after encode -/

/-- The encoder writes each well-formed instruction in a row that answers it. -/
theorem classRow_encode : ∀ i : Instr, i.wellFormed = true → ClassRow (encode i) (some i)
  | .cls, _ => .class0 0x0E0#12
  | .ret, _ => .class0 0x0EE#12
  | .sys nnn, h => by
    obtain ⟨hcls, hret⟩ : nnn ≠ 0x0E0#12 ∧ nnn ≠ 0x0EE#12 := by simpa [Instr.wellFormed] using h
    exact decodeClass0_eq_sys hcls hret ▸ .class0 nnn
  | .jp nnn, _ => .class1 nnn
  | .call nnn, _ => .class2 nnn
  | .seImm x nn, _ => .class3 x nn
  | .sneImm x nn, _ => .class4 x nn
  | .seReg x y, _ => .class5 x y 0x0#4
  | .ldImm x nn, _ => .class6 x nn
  | .addImm x nn, _ => .class7 x nn
  | .movReg x y, _ => .class8 x y 0x0#4
  | .orReg x y, _ => .class8 x y 0x1#4
  | .andReg x y, _ => .class8 x y 0x2#4
  | .xorReg x y, _ => .class8 x y 0x3#4
  | .addReg x y, _ => .class8 x y 0x4#4
  | .subReg x y, _ => .class8 x y 0x5#4
  | .shrReg x y, _ => .class8 x y 0x6#4
  | .subnReg x y, _ => .class8 x y 0x7#4
  | .shlReg x y, _ => .class8 x y 0xE#4
  | .sneReg x y, _ => .class9 x y 0x0#4
  | .ldI nnn, _ => .classA nnn
  | .jpV0 nnn, _ => .classB nnn
  | .rnd x nn, _ => .classC x nn
  | .drw x y n, _ => .classD x y n
  | .skp x, _ => .classE x 0x9E#8
  | .sknp x, _ => .classE x 0xA1#8
  | .ldXDt x, _ => .classF x 0x07#8
  | .ldXK x, _ => .classF x 0x0A#8
  | .ldDtX x, _ => .classF x 0x15#8
  | .ldStX x, _ => .classF x 0x18#8
  | .addIX x, _ => .classF x 0x1E#8
  | .ldFX x, _ => .classF x 0x29#8
  | .ldBX x, _ => .classF x 0x33#8
  | .ldMemX x, _ => .classF x 0x55#8
  | .ldXMem x, _ => .classF x 0x65#8
  | .halt, _ => .classF 0 0xFF#8

theorem decode_encode {i : Instr} (h : i.wellFormed = true) : decode (encode i) = some i :=
  (classRow_encode i h).decode_eq

theorem decodeBytes_eq_ok {hi lo : Byte} {rest : List Byte} {i : Instr} (h : decode (wordOfBytes hi lo) = some i) :
    decodeBytes (hi :: lo :: rest) = .ok (i, rest) := by
  rw [decodeBytes, h]

theorem decodeBytes_eq_invalid_iff {hi lo : Byte} {rest : List Byte} :
    decodeBytes (hi :: lo :: rest) = .error (.invalid (wordOfBytes hi lo)) ↔ decode (wordOfBytes hi lo) = none := by
  cases h : decode (wordOfBytes hi lo) <;> simp [decodeBytes, h]

/-- Settles O1: the encoder's word is in a row that answers the instruction, and its two bytes give that word back. -/
theorem decodeOfEncodeGivesTheInstruction : Obligations.DecodeOfEncodeGivesTheInstruction := by
  intro i h
  refine ⟨decode_encode h, fun rest => decodeBytes_eq_ok ?_⟩
  rw [Machine.wordOfBytes_hiByte_loByte, decode_encode h]

/-! ## Encode after decode -/

/-- `w` is the word of `i`; for HALT, whose X is ignored (R106, D39), a word with its fixed bits. -/
def Instr.HasWord (i : Instr) (w : Word) : Prop :=
  i.wellFormed = true ∧ (i ≠ .halt → encode i = w) ∧ (i = .halt → w &&& 0xF0FF#16 = 0xF0FF#16)

theorem Instr.hasWord_encode {i : Instr} (hwf : i.wellFormed = true) (hne : i ≠ .halt) : i.HasWord (encode i) :=
  ⟨hwf, fun _ => rfl, fun h => absurd h hne⟩

theorem Instr.hasWord_halt (x : Reg) : Instr.halt.HasWord (layoutFXI 0xF#4 x 0xFF#8) :=
  ⟨rfl, fun h => absurd rfl h, fun _ => Laws.EncodingMatchesTable.layoutFX_fixed 0xF#4 x 0xFF#8⟩

theorem hasWord_of_decodeClass0 {nnn : Addr12} {i : Instr} (h : decodeClass0 (layoutFA 0x0#4 nnn) = some i) :
    i.HasWord (layoutFA 0x0#4 nnn) := by
  by_cases hcls : nnn = 0x0E0#12
  · subst hcls
    cases h
    exact Instr.hasWord_encode (i := .cls) rfl nofun
  by_cases hret : nnn = 0x0EE#12
  · subst hret
    cases h
    exact Instr.hasWord_encode (i := .ret) rfl nofun
  rw [decodeClass0_eq_sys hcls hret] at h
  cases h
  exact Instr.hasWord_encode (i := .sys nnn) (by simp [Instr.wellFormed, hcls, hret]) nofun

theorem hasWord_of_decodeClass8 {x y : Reg} {n : Nibble} {i : Instr} (h : decodeClass8 x y n = some i) :
    i.HasWord (layoutFXYN 0x8#4 x y n) := by
  unfold decodeClass8 at h
  split_ifs at h <;> cases h <;> subst n <;> exact Instr.hasWord_encode rfl nofun

theorem hasWord_of_decodeClassE {x : Reg} {nn : Byte} {i : Instr} (h : decodeClassE x nn = some i) :
    i.HasWord (layoutFXI 0xE#4 x nn) := by
  unfold decodeClassE at h
  split_ifs at h <;> cases h <;> subst nn <;> exact Instr.hasWord_encode rfl nofun

theorem hasWord_of_decodeClassF {x : Reg} {nn : Byte} {i : Instr} (h : decodeClassF x nn = some i) :
    i.HasWord (layoutFXI 0xF#4 x nn) := by
  by_cases hhalt : nn = 0xFF#8
  · subst hhalt
    cases h
    exact Instr.hasWord_halt x
  unfold decodeClassF at h
  split_ifs at h <;> cases h <;> subst nn <;> exact Instr.hasWord_encode rfl nofun

/-- A row that answers an instruction is the word of that instruction. -/
theorem ClassRow.hasWord {w : Word} {r : Option Instr} {i : Instr} (hrow : ClassRow w r) (hr : r = some i) :
    i.HasWord w := by
  cases hrow with
  | class0 => exact hasWord_of_decodeClass0 hr
  | class5 | class9 =>
    obtain ⟨rfl, hi⟩ := Option.ite_none_right_eq_some.mp hr
    cases hi
    exact Instr.hasWord_encode rfl nofun
  | class8 => exact hasWord_of_decodeClass8 hr
  | classE => exact hasWord_of_decodeClassE hr
  | classF => exact hasWord_of_decodeClassF hr
  | class1 | class2 | class3 | class4 | class6 | class7 | classA | classB | classC | classD =>
    cases hr
    exact Instr.hasWord_encode rfl nofun

/-- Settles O2: by the row the word is in. -/
theorem encodeOfDecodeGivesTheWord : Obligations.EncodeOfDecodeGivesTheWord :=
  fun _ _ h => (decode_eq_iff.mp h).hasWord rfl

/-! ## The table with the fields as numbers -/

theorem decode_ofNat_FA {c : Nibble} {nnn : Addr12} {r : Option Instr} {m : Nat} (h : ClassRow (layoutFA c nnn) r)
    (hm : c.toNat * 4096 = m) : decode (BitVec.ofNat 16 (m + nnn.toNat)) = r := by
  rw [← hm, ofNat_layoutFA, h.decode_eq]

theorem decode_ofNat_FXI {c : Nibble} {x : Reg} {nn : Byte} {r : Option Instr} {m : Nat}
    (h : ClassRow (layoutFXI c x nn) r) (hm : c.toNat * 4096 = m) :
    decode (BitVec.ofNat 16 (m + x.val * 256 + nn.toNat)) = r := by
  rw [← hm, ofNat_layoutFXI, h.decode_eq]

theorem decode_ofNat_FXYN {c : Nibble} {x y : Reg} {n : Nibble} {r : Option Instr} {m : Nat}
    (h : ClassRow (layoutFXYN c x y n) r) (hm : c.toNat * 4096 = m) :
    decode (BitVec.ofNat 16 (m + x.val * 256 + y.val * 16 + n.toNat)) = r := by
  rw [← hm, ofNat_layoutFXYN, h.decode_eq]

/-- Settles O3: each class's word is its row's, and a selector is compared as a number. -/
theorem decoderFollowsTheClassTable : Obligations.DecoderFollowsTheClassTable := by
  intro x y nnn nn n
  refine ⟨rfl, rfl, ?class0, decode_ofNat_FA (.class1 nnn) rfl, decode_ofNat_FA (.class2 nnn) rfl,
    decode_ofNat_FXI (.class3 x nn) rfl, decode_ofNat_FXI (.class4 x nn) rfl, ?class5,
    decode_ofNat_FXI (.class6 x nn) rfl, decode_ofNat_FXI (.class7 x nn) rfl, ?class8, ?class9,
    decode_ofNat_FA (.classA nnn) rfl, decode_ofNat_FA (.classB nnn) rfl, decode_ofNat_FXI (.classC x nn) rfl,
    decode_ofNat_FXYN (.classD x y n) rfl, ?classE, ?classF⟩
  case class0 =>
    intro hcls hret
    rw [← decodeClass0_eq_sys (mt (congrArg BitVec.toNat) hcls) (mt (congrArg BitVec.toNat) hret),
      ← Nat.zero_add nnn.toNat]
    exact decode_ofNat_FA (.class0 nnn) rfl
  case class5 => exact (decode_ofNat_FXYN (.class5 x y n) rfl).trans (by simp [← BitVec.toNat_inj])
  case class8 => exact (decode_ofNat_FXYN (.class8 x y n) rfl).trans (by simp [decodeClass8, ← BitVec.toNat_inj])
  case class9 => exact (decode_ofNat_FXYN (.class9 x y n) rfl).trans (by simp [← BitVec.toNat_inj])
  case classE => exact (decode_ofNat_FXI (.classE x nn) rfl).trans (by simp [decodeClassE, ← BitVec.toNat_inj])
  case classF => exact (decode_ofNat_FXI (.classF x nn) rfl).trans (by simp [decodeClassF, ← BitVec.toNat_inj])

/-! ## The illegal words -/

theorem ite_some_eq_none_iff {α : Type} {p : Prop} [Decidable p] {a : α} {o : Option α} :
    (if p then some a else o) = none ↔ ¬p ∧ o = none := by
  simp [ite_eq_iff]

theorem decodeClass8_eq_none_iff {x y : Reg} {n : Nibble} :
    decodeClass8 x y n = none ↔ n ∈ [0x8#4, 0x9#4, 0xA#4, 0xB#4, 0xC#4, 0xD#4, 0xF#4] := by
  simp only [decodeClass8, ite_some_eq_none_iff]
  revert n
  decide

theorem decodeClassE_eq_none_iff {x : Reg} {nn : Byte} : decodeClassE x nn = none ↔ nn ∉ [0x9E#8, 0xA1#8] := by
  simp [decodeClassE, ite_some_eq_none_iff]

theorem decodeClassF_eq_none_iff {x : Reg} {nn : Byte} :
    decodeClassF x nn = none ↔
      nn ∉ [0x07#8, 0x0A#8, 0x15#8, 0x18#8, 0x1E#8, 0x29#8, 0x33#8, 0x55#8, 0x65#8, 0xFF#8] := by
  simp [decodeClassF, ite_some_eq_none_iff]

theorem decodeClass0_ne_none (w : Word) : decodeClass0 w ≠ none := by
  simp [decodeClass0, ite_some_eq_none_iff]

/-- R107's table, in the fields of the word. -/
theorem decode_eq_none_iff (w : Word) :
    decode w = none ↔
      (classField w = 0x5#4 ∧ nField w ≠ 0x0#4) ∨
      (classField w = 0x8#4 ∧ nField w ∈ [0x8#4, 0x9#4, 0xA#4, 0xB#4, 0xC#4, 0xD#4, 0xF#4]) ∨
      (classField w = 0x9#4 ∧ nField w ≠ 0x0#4) ∨
      (classField w = 0xE#4 ∧ nnField w ∉ [0x9E#8, 0xA1#8]) ∨
      (classField w = 0xF#4 ∧
        nnField w ∉ [0x07#8, 0x0A#8, 0x15#8, 0x18#8, 0x1E#8, 0x29#8, 0x33#8, 0x55#8, 0x65#8, 0xFF#8]) := by
  obtain ⟨r, hrow⟩ := exists_classRow w
  rw [hrow.decode_eq]
  cases hrow with
  | class0 => simp [classField_layoutFA, decodeClass0_ne_none]
  | class1 | class2 | classA | classB => simp [classField_layoutFA]
  | class3 | class4 | class6 | class7 | classC => simp [classField_layoutFXI]
  | class5 | class9 => simp [classField_layoutFXYN, nField_layoutFXYN]
  | class8 => simp [classField_layoutFXYN, nField_layoutFXYN, decodeClass8_eq_none_iff]
  | classD => simp [classField_layoutFXYN]
  | classE => simp [classField_layoutFXI, nnField_layoutFXI, decodeClassE_eq_none_iff]
  | classF => simp [classField_layoutFXI, nnField_layoutFXI, decodeClassF_eq_none_iff]

/-- Settles O4: the word of the two bytes is the number the statement names, and its fields are that number's digits. -/
theorem illegalWordsAreThoseListed : Obligations.IllegalWordsAreThoseListed := by
  refine ⟨?_, fun _ => rfl, rfl⟩
  intro hi lo rest w
  have hw : w = (wordOfBytes hi lo).toNat := (wordOfBytes_toNat hi lo).symm
  rw [hw, BitVec.ofNat_toNat, BitVec.setWidth_eq]
  constructor
  · rw [decodeBytes_eq_invalid_iff, decode_eq_none_iff]
    simp [← BitVec.toNat_inj, classField_toNat, nField_toNat, nnField_toNat]
  · cases h : decode (wordOfBytes hi lo) with
    | some i => exact .inl ⟨i, decodeBytes_eq_ok h⟩
    | none => exact .inr (decodeBytes_eq_invalid_iff.mpr h)

/-! ## Class 0 -/

theorem classField_eq_zero {w : Word} (h : w.toNat < 0x1000) : classField w = 0x0#4 := by
  apply BitVec.eq_of_toNat_eq
  rw [classField_toNat]
  exact Nat.div_eq_of_lt h

theorem nnnField_eq_ofNat (w : Word) : nnnField w = BitVec.ofNat 12 w.toNat :=
  BitVec.eq_of_toNat_eq (by rw [nnnField_toNat, BitVec.toNat_ofNat])

/-- Settles O5: a word below 0x1000 is of class 0, where the decoder compares the whole word. -/
theorem classZeroMatchesOnTheWholeWord : Obligations.ClassZeroMatchesOnTheWholeWord := by
  intro w hw
  have hdec : decode w = decodeClass0 w := if_pos (classField_eq_zero hw)
  rw [hdec, decodeClass0, nnnField_eq_ofNat]
  by_cases hcls : w = 0x00E0#16
  · simp [hcls]
  by_cases hret : w = 0x00EE#16
  · simp [hret]
  simp [hcls, hret]

/-! ## Ignored fields, and words written out -/

/-- Settles O6: HALT's row has every X; the meanings of SHR, SHL and of SYS under `Nop` do not read the field. -/
theorem ignoredFieldsChangeNothing : Obligations.IgnoredFieldsChangeNothing := by
  refine ⟨fun x => ?_, fun _ _ _ _ => ⟨rfl, rfl⟩, fun _ _ _ => rfl⟩
  rw [show 0xF0FF + x.val * 256 = 0xF000 + x.val * 256 + (0xFF#8).toNat by rw [BitVec.toNat_ofNat]; omega]
  exact decode_ofNat_FXI (.classF x 0xFF#8) rfl

/-- Settles O7, by running the decoder on the words. -/
theorem writtenOutWordsDecode : Obligations.WrittenOutWordsDecode := by
  unfold Obligations.WrittenOutWordsDecode
  decide

end Sys2Proof
end

section
/-! The ways a step ends (spec/40_step.md R140 to R149): how the fetch and the decode lead to exec or to a fault, what a
successful step keeps, the key wait, and the end of Memory. -/

namespace Sys2Proof.Machine

/-! ## The fetch and the decode -/

/-- R142: where a byte at PC lies outside Memory, the fetch has no word. -/
theorem State.fetchWord_of_ge {s : State} (h : memSize ≤ s.pc.toNat + 1) : s.fetchWord = none := if_neg (Nat.not_lt.mpr h)

/-- A word is fetched only where both its bytes lie in Memory. -/
theorem State.pc_lt_of_fetchWord {s : State} {w : Word} (h : s.fetchWord = some w) : s.pc.toNat + 1 < memSize := by
  by_contra hge
  simp [State.fetchWord_of_ge (Nat.not_lt.mp hge)] at h

/-- R140, R142: a fetch that has no word faults. -/
theorem step_of_fetchWord_none {s : State} (hr : s.running = true) (hf : s.fetchWord = none) :
    step s = faultAt s (.memory .outOfBounds) s.fetchFaultAddr := by
  simp only [step, hr, if_true, hf, raiseFault, faultAt]

/-- R143: a word that decodes to nothing faults. -/
theorem step_of_decode_none {s : State} {w : Word} (hr : s.running = true) (hf : s.fetchWord = some w)
    (hd : decode w = none) : step s = faultAt s .illegalInstruction s.pc.toNat := by
  simp only [step, hr, if_true, hf, hd, raiseFault, faultAt]

/-- Two bytes read as an instruction only where their word decodes to it. -/
theorem decode_of_decodeBytes {hi lo : Byte} {rest rest' : List Byte} {i : Instr}
    (h : decodeBytes (hi :: lo :: rest) = .ok (i, rest')) : decode (wordOfBytes hi lo) = some i := by
  cases hd : decode (wordOfBytes hi lo) with
  | some j =>
    rw [decodeBytes_eq_ok hd] at h
    cases h
    rfl
  | none =>
    rw [decodeBytes_eq_invalid_iff.mpr hd] at h
    cases h

/-- Settles O8: the two bytes at PC are those of the word the step fetches. -/
theorem stepRunsTheDecodedInstruction : Obligations.StepRunsTheDecodedInstruction :=
  fun s _ hrun hpc hdec => step_of_decode hrun (s.fetchWord_of_lt hpc) (decode_of_decodeBytes hdec)

/-- Settles O9: by the two sides of the fetch's bounds check. -/
theorem fetchIsBigEndianAndBoundsChecked : Obligations.FetchIsBigEndianAndBoundsChecked := by
  intro s
  refine ⟨fun hpc => ⟨_, s.fetchWord_of_lt hpc, wordOfBytes_toNat _ _⟩, fun hpc hrun => ?_⟩
  have hf := State.fetchWord_of_ge hpc
  rw [step_of_fetchWord_none hrun hf, faultAt, hf, State.fetchFaultAddr]

/-- Settles O10: the record's word is the one the step fetched. -/
theorem illegalWordFaultsWithWordAndAddress : Obligations.IllegalWordFaultsWithWordAndAddress := by
  intro s w hrun hf hd
  rw [step_of_decode_none hrun hf hd, faultAt, hf]

/-! ## What the step transaction leaves -/

/-- Settles O11: only a stopped core's step is refused. -/
theorem stoppedCoreHasNoStep : Obligations.StoppedCoreHasNoStep :=
  fun _ h => ⟨step_eq_refused.mpr ⟨h, rfl⟩, stepTransaction_of_stopped h⟩

/-- R146: a step that faults leaves the state before it, with the fault taken. -/
theorem stepTransaction_of_fault {s : State} {f : Fault} (h : step s = .fault f) :
    stepTransaction s = (s.takeFault f, .fault f) := by
  rw [stepTransaction, h]

/-- Settles O12: a fault of a step is recorded at the state before it, which the transaction leaves but for taking the fault. -/
theorem faultingStepCommitsNothing : Obligations.FaultingStepCommitsNothing :=
  fun _ _ h => ⟨stepTransaction_of_fault h, (step_eq_fault h).2⟩

/-- R46: no instruction writes `tone`. -/
theorem tone_notMem_writtenParts (i : Instr) : Part.tone ∉ writtenParts i := by
  cases i <;> simp [writtenParts, nativeCallMode]

/-- R35, R147: a commit leaves PC inside Memory. -/
theorem exec_next_pc_lt {i : Instr} {s t : State} (h : exec i s = .next t) : t.pc.toNat < memSize := by
  obtain ⟨u, n, -, hn, rfl⟩ := exec_eq_next.mp h
  rwa [commitState_pc_toNat u hn]

/-- Settles O13: a step that succeeds is exec of an instruction, which lists neither `fault` nor `tone`. -/
theorem successfulStepCountsAndStaysInMemory : Obligations.SuccessfulStepCountsAndStaysInMemory := by
  intro s t h
  obtain ⟨hrun, w, i, -, -, he⟩ := step_eq_next.mp h
  have hkept := exec_keptExcept he
  exact ⟨hrun, exec_next_cycles he, exec_next_pc_lt he, hkept .fault (fault_notMem_writtenParts i),
    hkept .tone (tone_notMem_writtenParts i)⟩

/-! ## The key wait -/

theorem State.atKeyWait_eq_true {s : State} : s.atKeyWait = true ↔ ∃ x, s.fetchWord.bind decode = some (.ldXK x) := by
  rw [State.atKeyWait]
  split <;> simp_all

/-- R47: the core waits for a key while it runs, FX0A is at PC and no key is held. -/
theorem State.runState_eq_waitingForKey {s : State} :
    s.runState = .waitingForKey ↔ s.running = true ∧ s.atKeyWait = true ∧ s.keys = 0 := by
  rw [State.runState]
  split_ifs <;> simp_all

/-- A commit of no write at the same PC only counts the step. -/
theorem commitState_self (s : State) : commitState s s.pc.toNat = { s with cycles := s.cycles + 1 } := by
  rw [commitState, BitVec.ofNat_toNat, BitVec.setWidth_eq]

/-- R149: FX0A with no key held only counts the step. -/
theorem exec_ldXK_of_keys_eq_zero {x : Reg} {s : State} (hk : s.keys = 0) (hpc : s.pc.toNat < memSize) :
    exec (.ldXK x) s = .next { s with cycles := s.cycles + 1 } := by
  have hwait : effectOf (.ldXK x) s = .writes s s.pc.toNat :=
    waitForKey_eq_writes.mpr (.inl ⟨s.lowestKey_eq_none.mpr hk, rfl, rfl⟩)
  rw [exec_next_of_effect hwait hpc, commitState_self]

/-- Settles O52: the step is FX0A's with no key held, and the run state does not read `cycles`. -/
theorem waitingForKeyIsASelfTransition : Obligations.WaitingForKeyIsASelfTransition := by
  intro s hs
  obtain ⟨hrun, hat, hk⟩ := State.runState_eq_waitingForKey.mp hs
  obtain ⟨x, hx⟩ := State.atKeyWait_eq_true.mp hat
  obtain ⟨w, hw, hdec⟩ := Option.bind_eq_some_iff.mp hx
  have hpc : s.pc.toNat < memSize := Nat.lt_of_succ_lt (State.pc_lt_of_fetchWord hw)
  refine ⟨{ s with cycles := s.cycles + 1 }, ?step, ⟨rfl, rfl⟩, ?frame, hs⟩
  case step => rw [step_of_decode hrun hw hdec, exec_ldXK_of_keys_eq_zero hk hpc]
  case frame => exact fun p _ => Part.Kept.same (by cases p <;> rfl)

/-! ## The end of Memory -/

/-- R147, D7: an instruction whose own checks pass and whose next PC is `PC + 2`, past the end of Memory, faults there. -/
theorem exec_fallsOff {i : Instr} {s u : State} (hend : memSize ≤ s.pc.toNat + 2) (he : effectOf i s = .writes u s.pcPlus2) :
    exec i s = faultAt s (.memory .pcOutOfRange) (s.pc.toNat + 2) :=
  exec_outOfRange_of_effect he hend

/-- Past the glyph table there is no glyph address. -/
theorem isGlyphAddr_eq_false_of_le {a j : Nat} (h : isGlyphAddr a = false) (hj : a ≤ j) : isGlyphAddr j = false :=
  isGlyphAddr_eq_false.mpr ((isGlyphAddr_eq_false.mp h).trans hj)

/-- R241: a range that ends inside Memory ends where I can still point. -/
theorem index_le_of_inBounds {a n : Nat} (h : a + n ≤ memSize) : a + n ≤ 0xFFFF := Nat.le_trans h (by decide)

/-- Settles O53: past its own checks, each of these instructions gives its writes with the default next PC. -/
theorem fallingOffTheEndOfMemoryFaults : Obligations.FallingOffTheEndOfMemoryFaults := by
  intro x y nn nnn n s hend
  refine ⟨?unchecked, fun hi => ?addIX, fun hd => ?ldFX, fun hk => ?ldXK, fun hb => ?drw, fun hb hg => ?ldBX,
    fun hb => ?ldXMem, fun hb hg => ?ldMemX⟩
  case unchecked =>
    intro i hi
    fin_cases hi <;> exact exec_fallsOff hend rfl
  case addIX => exact exec_fallsOff hend (incIndex_eq_writes.mpr ⟨hi, rfl, rfl⟩)
  case ldFX => exact exec_fallsOff hend (pointAtGlyph_eq_writes.mpr ⟨Nat.lt_succ_of_le hd, rfl, rfl⟩)
  case ldXK =>
    obtain ⟨k, hlow⟩ := Option.ne_none_iff_exists'.mp (mt s.lowestKey_eq_none.mp hk)
    exact exec_fallsOff hend (waitForKey_eq_writes.mpr (.inr ⟨k, hlow, rfl, rfl⟩))
  case drw => exact exec_fallsOff hend (checkBounds_eq_writes.mpr ⟨hb, rfl⟩)
  case ldBX =>
    exact exec_fallsOff hend <| checkBounds_eq_writes.mpr ⟨.inr hb,
      checkGlyph_eq_writes.mpr ⟨fun _ hj _ => isGlyphAddr_eq_false_of_le hg hj, rfl⟩⟩
  case ldXMem =>
    exact exec_fallsOff hend <| checkBounds_eq_writes.mpr ⟨.inr hb,
      incIndex_eq_writes.mpr ⟨index_le_of_inBounds hb, rfl, rfl⟩⟩
  case ldMemX =>
    exact exec_fallsOff hend <| checkBounds_eq_writes.mpr ⟨.inr hb,
      checkGlyph_eq_writes.mpr ⟨fun _ hj _ => isGlyphAddr_eq_false_of_le hg hj,
        incIndex_eq_writes.mpr ⟨index_le_of_inBounds hb, rfl, rfl⟩⟩⟩

end Sys2Proof.Machine
end

section
/-! Control transfer (spec/41_control_transfer.md): the jumps, the call stack as CALL pushes and RET pops it, the native call
and HALT. -/

namespace Sys2Proof.Machine

/-! ## A success, as the statements read it -/

/-- R145, D40: an instruction whose effect is writes with a next PC inside Memory commits there and keeps what its rule does not
list. -/
theorem exec_committed_of_effect {i : Instr} {s u : State} {n : Nat} (he : effectOf i s = .writes u n) (hn : n < memSize) :
    ∃ t, exec i s = .next t ∧ Committed s t n ∧ UnchangedExcept s t (writtenParts i) := by
  have hnext := exec_next_of_effect he hn
  exact ⟨_, hnext, ⟨commitState_pc_toNat u hn, exec_next_cycles hnext⟩, instructionsWriteOnlyTheirListedParts i s _ hnext⟩

/-- R102: a 12-bit address lies inside Memory. -/
theorem addrOperand_lt (nnn : Addr12) : addrOperand nnn < memSize := nnn.isLt

/-- Settles O34: the rules list no write, and a 12-bit target needs no check. -/
theorem jumpsGoToTheirTargets : Obligations.JumpsGoToTheirTargets := fun nnn _ =>
  ⟨exec_committed_of_effect (i := .jp nnn) rfl (addrOperand_lt nnn),
    fun hin => exec_committed_of_effect (i := .jpV0 nnn) rfl hin,
    fun hout => exec_outOfRange_of_effect (i := .jpV0 nnn) rfl hout⟩

/-! ## The call stack -/

/-- R160: a push on a full stack faults. -/
theorem pushAndGo_of_full {s : State} {r : Word} {target : Nat} (h : s.sp.toNat = 2 * stackDepth) :
    pushAndGo s r target = .raises (.memory .stackOverflow) (stackBase + 2 * stackDepth) := by
  rw [pushAndGo, if_pos h, State.stackTop, h]

/-- R160: a pop from an empty stack faults. -/
theorem popAndGo_of_empty {s : State} (h : s.sp.toNat = 0) : popAndGo s = .raises (.memory .stackUnderflow) stackBase :=
  if_pos h

/-- The return address is `PC + 2` cut to 16 bits (log 8). -/
theorem State.returnAddress_toNat (s : State) : s.returnAddress.toNat = (s.pc.toNat + 2) % 2 ^ 16 :=
  BitVec.toNat_ofNat _ _

/-- R166: a CALL that succeeds has stored the return address in the next free stack slot. -/
theorem exec_call_mem {nnn : Addr12} {s t : State} (h : exec (.call nnn) s = .next t) :
    t.mem = s.mem.writeWord s.stackTop s.returnAddress :=
  exec_next_of_ensures_commit (P := fun t => t.mem = s.mem.writeWord s.stackTop s.returnAddress) h
    (ensures_pushAndGo.mpr fun _ _ => rfl)

/-- R74: the two bytes of the slot, high byte first. -/
theorem exec_call_slot {nnn : Addr12} {s t : State} (hm : s.mem.wf = true) (h : exec (.call nnn) s = .next t) :
    (t.mem.read s.stackTop).toNat = (s.pc.toNat + 2) / 256 % 256 ∧
      (t.mem.read (s.stackTop + 1)).toNat = (s.pc.toNat + 2) % 256 := by
  obtain ⟨hhi, hlo⟩ := Memory.read_writeWord hm s.stackTop_lt s.returnAddress
  rw [exec_call_mem h, hhi, hlo, hiByte_toNat, loByte_toNat, s.returnAddress_toNat]
  omega

/-- Settles O35: by the check for a full stack. -/
theorem callPushesTheReturnAddress : Obligations.CallPushesTheReturnAddress := by
  refine fun nnn s => ⟨fun hfree => ?free, fun hfull => exec_fault_of_effect (pushAndGo_of_full hfull)⟩
  obtain ⟨t, ht, hcommitted, -⟩ := exec_committed_of_effect (i := .call nnn)
    (pushAndGo_eq_writes.mpr ⟨hfree, rfl, rfl⟩) (addrOperand_lt nnn)
  exact ⟨t, ht, hcommitted, exec_call_sp ht, fun hm => exec_call_slot hm ht⟩

/-- R161: on a stack that is not empty, RET goes to the word below `STACK_BASE + SP`. -/
theorem effectOf_ret {s : State} (h : s.sp.toNat ≠ 0) :
    effectOf .ret s = .writes { s with sp := s.sp - 2 } (s.mem.readWord (s.stackTop - 2)).toNat :=
  popAndGo_eq_writes.mpr ⟨h, rfl, rfl⟩

/-- R74, R75: that word is big-endian. -/
theorem State.poppedWord_toNat (s : State) :
    (s.mem.readWord (s.stackTop - 2)).toNat =
      (s.mem.read (stackBase + s.sp.toNat - 2)).toNat * 256 + (s.mem.read (stackBase + s.sp.toNat - 1)).toNat := by
  have hnext : stackBase + s.sp.toNat - 2 + 1 = stackBase + s.sp.toNat - 1 := by simp only [stackBase]; omega
  rw [Memory.readWord, wordOfBytes_toNat, State.stackTop, hnext]

/-- Settles O36: by the check for an empty stack, then by the range of the popped word. -/
theorem returnPopsTheReturnAddress : Obligations.ReturnPopsTheReturnAddress := by
  intro s
  simp only [← s.poppedWord_toNat]
  refine ⟨fun hsp hin => ?success, fun hsp hout => exec_outOfRange_of_effect (effectOf_ret hsp) hout,
    fun hempty => exec_fault_of_effect (popAndGo_of_empty hempty)⟩
  obtain ⟨t, ht, hcommitted, -⟩ := exec_committed_of_effect (effectOf_ret hsp) hin
  exact ⟨t, ht, hcommitted, exec_ret_sp ht⟩

/-! ## CALL, then RET -/

/-- R173: a RET in the state a CALL leaves pops the word the CALL pushed. -/
theorem effectOf_ret_of_exec_call {nnn : Addr12} {s t : State} (hm : s.mem.wf = true) (hb : s.sp.toNat ≤ 2 * stackDepth)
    (h : exec (.call nnn) s = .next t) : effectOf .ret t = .writes { t with sp := s.sp } s.returnAddress.toNat := by
  have hsp : t.sp.toNat = s.sp.toNat + 2 := by
    have hbound : s.sp.toNat ≤ 32 := hb
    rw [exec_call_sp h]
    bv_omega
  have hback : t.sp - 2 = s.sp := by
    rw [exec_call_sp h]
    exact BitVec.add_sub_cancel _ _
  have hslot : t.stackTop - 2 = s.stackTop := by
    simp only [State.stackTop, hsp]
    omega
  rw [effectOf_ret (by omega), hback, hslot, exec_call_mem h, Memory.readWord_writeWord hm s.stackTop_lt]

/-- R43: a step that succeeds at another instruction than HALT leaves the core running. -/
theorem running_of_exec_ne_halt {i : Instr} {s t : State} (hrun : s.running = true)
    (h : exec i s = .next t) (hne : i ≠ .halt) : t.running = true :=
  (exec_keptExcept h .running (mt running_mem_writtenParts hne)).trans hrun

/-- Settles O37: the next step is a RET that pops what the CALL pushed, so it goes to `PC + 2` where that is inside Memory. -/
theorem callThenReturnComesBack : Obligations.CallThenReturnComesBack := by
  intro nnn s t hm hb hcall hstep htarget
  obtain ⟨hrun, w, i, hw, hi, he⟩ := step_eq_next.mp hstep
  obtain rfl : i = .call nnn := by simpa [hw, hi] using hcall
  have hret : effectOf .ret t = .writes { t with sp := s.sp } (s.pc.toNat + 2) := by
    have hpc := State.pc_lt_of_fetchWord hw
    rw [effectOf_ret_of_exec_call hm hb he, s.returnAddress_toNat, Nat.mod_eq_of_lt (by simp only [memSize] at hpc; omega)]
  rw [step_of_decode (running_of_exec_ne_halt hrun he nofun) htarget (i := .ret) rfl]
  exact ⟨fun hin => ⟨_, exec_next_of_effect hret hin, commitState_pc_toNat _ hin, rfl⟩,
    exec_outOfRange_of_effect hret⟩

/-! ## The native call and HALT -/

/-- Settles O38: in `Nop` mode the rule lists no write and the next PC is the default, in `Call` mode the effect is CALL's own. -/
theorem nativeCallInBothModes : Obligations.NativeCallInBothModes := fun nnn _ =>
  ⟨exec_committed_of_effect (i := .sys nnn) rfl, rfl⟩

/-- R47: a stopped core without a fault record is Halted. -/
theorem State.runState_eq_halted {s : State} (hrun : s.running = false) (hfault : s.fault = none) :
    s.runState = .halted := by
  simp [State.runState, hrun, hfault]

theorem exec_halt_running {s t : State} (h : exec .halt s = .next t) : t.running = false :=
  exec_next_of_ensures_commit (P := fun t => t.running = false) h (ensures_fallThrough.mpr fun _ => rfl)

/-- Settles O39: HALT clears `running` and does not list the fault record. -/
theorem haltStopsCleanly : Obligations.HaltStopsCleanly := by
  intro s hpc
  obtain ⟨t, ht, hcommitted, hkept⟩ := exec_committed_of_effect (i := .halt) rfl hpc
  have hstopped := exec_halt_running ht
  have hfault : t.fault = s.fault := hkept .fault (fault_notMem_writtenParts .halt)
  exact ⟨t, ht, hcommitted, hstopped, hfault, fun hnone => State.runState_eq_halted hstopped (hfault.trans hnone),
    step_eq_refused.mpr ⟨hstopped, rfl⟩⟩

end Sys2Proof.Machine
end

section
/-! Conditional skips (spec/42_conditional_skip.md): what a skip does once its condition is known, and the conditions themselves. -/

namespace Sys2Proof.Machine

/-! ## The skip mechanism -/

/-- R180, R147: an instruction whose effect is a skip, and whose rule lists no write, commits at PC + 4 or PC + 2 or faults there. -/
theorem exec_of_skipIf {i : Instr} {s : State} {c : Bool} (hw : writtenParts i = []) (he : effectOf i s = skipIf s c) :
    (s.pc.toNat + (if c then 4 else 2) < memSize →
      ∃ t, exec i s = .next t ∧ Committed s t (s.pc.toNat + (if c then 4 else 2)) ∧ UnchangedExcept s t []) ∧
    (memSize ≤ s.pc.toNat + (if c then 4 else 2) →
      exec i s = faultAt s (.memory .pcOutOfRange) (s.pc.toNat + (if c then 4 else 2))) := by
  have hwrites := he.trans (skipIf_eq_writes.mpr ⟨rfl, rfl⟩)
  exact ⟨fun hin => hw ▸ exec_committed_of_effect hwrites hin, exec_outOfRange_of_effect hwrites⟩

/-! ## The comparing skips -/

/-- Two bytes are equal as data exactly where they are as numbers. -/
theorem byte_beq_eq_decide_toNat (a b : Byte) : (a == b) = decide (a.toNat = b.toNat) := by
  rw [beq_eq_decide, decide_eq_decide, BitVec.toNat_inj]

theorem byte_bne_eq_decide_toNat (a b : Byte) : (a != b) = decide (a.toNat ≠ b.toNat) := by
  rw [bne, byte_beq_eq_decide_toNat, decide_not]

/-- Settles O40: each rule is a skip on a comparison of two bytes. -/
theorem comparingSkips : Obligations.ComparingSkips := by
  intro x y nn s i c hi
  simp only [List.mem_cons, Prod.mk.injEq, List.not_mem_nil, or_false] at hi
  obtain ⟨rfl, rfl⟩ | ⟨rfl, rfl⟩ | ⟨rfl, rfl⟩ | ⟨rfl, rfl⟩ := hi
  · exact exec_of_skipIf rfl (congrArg (skipIf s) (byte_beq_eq_decide_toNat _ _))
  · exact exec_of_skipIf rfl (congrArg (skipIf s) (byte_bne_eq_decide_toNat _ _))
  · exact exec_of_skipIf rfl (congrArg (skipIf s) (byte_beq_eq_decide_toNat _ _))
  · exact exec_of_skipIf rfl (congrArg (skipIf s) (byte_bne_eq_decide_toNat _ _))

/-! ## The key skips -/

/-- R185, R187: with a key index up to 15, a key skip is a skip on that key's bit of the input latch. -/
theorem skipOnKey_of_le {s : State} {x : Reg} (f : Bool → Bool) (h : (s.reg x).toNat ≤ 15) :
    skipOnKey s x f = skipIf s (f (s.keys.getLsbD (s.reg x).toNat)) := by
  have hkey : s.keyOperand x = some ⟨(s.reg x).toNat, Nat.lt_succ_of_le h⟩ := State.keyOperand_eq_some.mpr rfl
  simp only [skipOnKey, hkey, State.keyHeld]

/-- R186: a key index past 15 faults at PC. -/
theorem skipOnKey_of_gt {s : State} {x : Reg} (f : Bool → Bool) (h : 15 < (s.reg x).toNat) :
    skipOnKey s x f = .raises (.operand .keyIndex) s.pc.toNat := by
  rw [skipOnKey, State.keyOperand_eq_none.mpr h]

/-- Settles O41: by the range of the key index, then by the skip mechanism. -/
theorem keySkips : Obligations.KeySkips := by
  intro x s held i c hi
  obtain ⟨f, hw, he, rfl⟩ : ∃ f : Bool → Bool, writtenParts i = [] ∧ effectOf i s = skipOnKey s x f ∧ f held = c := by
    simp only [List.mem_cons, Prod.mk.injEq, List.not_mem_nil, or_false] at hi
    obtain ⟨rfl, rfl⟩ | ⟨rfl, rfl⟩ := hi
    · exact ⟨fun held => held, rfl, rfl, rfl⟩
    · exact ⟨fun held => !held, rfl, rfl, rfl⟩
  have hskip := fun hle => exec_of_skipIf hw (he.trans (skipOnKey_of_le f hle))
  exact ⟨fun hle => (hskip hle).1, fun hle => (hskip hle).2,
    fun hgt => exec_fault_of_effect (he.trans (skipOnKey_of_gt f hgt))⟩

end Sys2Proof.Machine
end

section
/-! The ALU (spec/43_alu.md): what an instruction that writes one register, or one register and then the flag, leaves in them,
and the results and flags as numbers. -/

namespace Sys2Proof.Machine

/-! ## The two write shapes -/

/-- R144, R145: an instruction whose one register write is `V[X] <- b` commits at `PC + 2` with `b` in VX. The writes may touch
other parts of the state before that (`u`). -/
theorem exec_of_setReg {i : Instr} {s u : State} {x : Reg} {b : Byte} (hw : writtenRegs i = [x])
    (he : effectOf i s = fallThrough s (u.setReg x b)) (hpc : s.pc.toNat + 2 < memSize) :
    ∃ t, exec i s = .next t ∧ Committed s t (s.pc.toNat + 2) ∧ t.reg x = b ∧ RegsUnchangedExcept s t [x] := by
  obtain ⟨t, ht, hcommitted, -⟩ := exec_committed_of_effect he hpc
  have hx : t.reg x = b := exec_next_of_ensures_commit (P := fun t => t.reg x = b) ht <|
    he ▸ ensures_fallThrough.mpr fun _ => by rw [commitState_reg, State.reg_setReg, if_pos rfl]
  exact ⟨t, ht, hcommitted, hx, hw ▸ instructionsWriteOnlyTheirListedRegisters i s t ht⟩

/-- Such an instruction with its result read bit by bit. -/
theorem exec_bits_of_setReg {i : Instr} {s u : State} {x : Reg} {b : Byte} {bit : Nat → Bool} (hw : writtenRegs i = [x])
    (he : effectOf i s = fallThrough s (u.setReg x b)) (hb : ∀ j, b.getLsbD j = bit j) (hpc : s.pc.toNat + 2 < memSize) :
    ∃ t, exec i s = .next t ∧ Committed s t (s.pc.toNat + 2) ∧ RegsUnchangedExcept s t [x] ∧
      ∀ j, (t.reg x).getLsbD j = bit j := by
  obtain ⟨t, ht, hcommitted, rfl, hregs⟩ := exec_of_setReg hw he hpc
  exact ⟨t, ht, hcommitted, hregs, hb⟩

/-- R200, D14: an instruction that writes VX and then the flag commits at `PC + 2` with the flag in VF, and with the result in VX
where X is not F. -/
theorem exec_of_setRegAndFlag {i : Instr} {s : State} {x : Reg} {b : Byte} {f : Bool} {r k : Nat}
    (hw : writtenRegs i = [x, VF]) (he : effectOf i s = fallThrough s (s.setRegAndFlag x b f))
    (hb : b.toNat = r) (hf : (flagByte f).toNat = k) (hpc : s.pc.toNat + 2 < memSize) :
    ∃ t, exec i s = .next t ∧ Committed s t (s.pc.toNat + 2) ∧ (x ≠ VF → (t.reg x).toNat = r) ∧ (t.reg VF).toNat = k ∧
      RegsUnchangedExcept s t [x, VF] := by
  obtain ⟨t, ht, hcommitted, -⟩ := exec_committed_of_effect he hpc
  have hreg : ∀ q, t.reg q = if q = VF then flagByte f else if q = x then b else s.reg q :=
    exec_next_of_ensures_commit (P := fun t => ∀ q, t.reg q = if q = VF then flagByte f else if q = x then b else s.reg q) ht <|
      he ▸ ensures_fallThrough.mpr fun _ q => State.reg_setRegAndFlag s x q b f
  refine ⟨t, ht, hcommitted, fun hx => ?result, ?flag, hw ▸ instructionsWriteOnlyTheirListedRegisters i s t ht⟩
  case result => rw [hreg, if_neg hx, if_pos rfl, hb]
  case flag => rw [hreg, if_pos rfl, hf]

/-! ## Results and flags as numbers -/

theorem flagByte_toNat (f : Bool) : (flagByte f).toNat = f.toNat := by cases f <;> rfl

/-- R207, R208, R210: the carry and NOT borrow are comparisons. -/
theorem flagByte_decide_toNat (p : Prop) [Decidable p] : (flagByte (decide p)).toNat = if p then 1 else 0 := by
  rw [flagByte_toNat, Bool.toNat, Bool.cond_decide]

/-- R209: the bit a right shift by one shifts out is the lowest. -/
theorem flagByte_shiftedOutRight_toNat (a : Byte) : (flagByte (shiftedOutRight a)).toNat = a.toNat % 2 := by
  rw [flagByte_toNat, shiftedOutRight, BitVec.getLsbD, Nat.toNat_testBit, pow_zero, Nat.div_one]

/-- R211: the bit a left shift by one shifts out is the highest. -/
theorem flagByte_shiftedOutLeft_toNat (a : Byte) : (flagByte (shiftedOutLeft a)).toNat = a.toNat / 128 := by
  have ha := a.isLt
  rw [flagByte_toNat, shiftedOutLeft, BitVec.getLsbD, Nat.toNat_testBit]
  omega

/-- R208, R210: subtraction wraps. -/
theorem byte_sub_toNat (a b : Byte) : (a - b).toNat = (a.toNat + 256 - b.toNat) % 256 := by
  have hb := b.isLt
  rw [BitVec.toNat_sub]
  omega

/-- R209. -/
theorem byte_shiftRight_one_toNat (a : Byte) : (a >>> 1).toNat = a.toNat / 2 := by
  rw [BitVec.toNat_ushiftRight, Nat.shiftRight_eq_div_pow, pow_one]

/-- R211: the bit shifted out is lost. -/
theorem byte_shiftLeft_one_toNat (a : Byte) : (a <<< 1).toNat = 2 * a.toNat % 256 := by
  rw [BitVec.toNat_shiftLeft, Nat.shiftLeft_eq, pow_one, mul_comm]

/-! ## The obligations -/

/-- Settles O30: the sum is a byte's, and the flag is the carry. -/
theorem addSetsCarry : Obligations.AddSetsCarry := fun x y _ =>
  exec_of_setRegAndFlag (i := .addReg x y) rfl rfl (BitVec.toNat_add _ _) (flagByte_decide_toNat _)

/-- Settles O31: SUBN is SUB with its operands exchanged. -/
theorem subtractionsSetNotBorrow : Obligations.SubtractionsSetNotBorrow := fun x y _ hpc =>
  ⟨exec_of_setRegAndFlag (i := .subReg x y) rfl rfl (byte_sub_toNat _ _) (flagByte_decide_toNat _) hpc,
    exec_of_setRegAndFlag (i := .subnReg x y) rfl rfl (byte_sub_toNat _ _) (flagByte_decide_toNat _) hpc⟩

/-- Settles O32: both rules shift VX itself, so Y is free. -/
theorem shiftsSetTheShiftedOutBit : Obligations.ShiftsSetTheShiftedOutBit := fun x y _ hpc =>
  ⟨exec_of_setRegAndFlag (i := .shrReg x y) rfl rfl (byte_shiftRight_one_toNat _) (flagByte_shiftedOutRight_toNat _) hpc,
    exec_of_setRegAndFlag (i := .shlReg x y) rfl rfl (byte_shiftLeft_one_toNat _) (flagByte_shiftedOutLeft_toNat _) hpc⟩

/-- Settles O28: each rule writes VX alone, and faults only where `PC + 2` is past Memory. -/
theorem loadMoveAndAddImmediateResults : Obligations.LoadMoveAndAddImmediateResults := by
  intro x y nn s
  refine ⟨fun hpc => ⟨?ldImm, ?addImm, ?movReg⟩, fun hend i hi => ?fault⟩
  case ldImm => exact exec_of_setReg (i := .ldImm x nn) rfl rfl hpc
  case addImm =>
    obtain ⟨t, ht, hcommitted, hx, hregs⟩ := exec_of_setReg (i := .addImm x nn) rfl rfl hpc
    exact ⟨t, ht, hcommitted, hx ▸ BitVec.toNat_add _ _, hregs⟩
  case movReg => exact exec_of_setReg (i := .movReg x y) rfl rfl hpc
  case fault => fin_cases hi <;> exact exec_fallsOff hend rfl

/-- Settles O29: each rule writes VX alone, and its bits are the operands' bits combined. -/
theorem logicalOperationsResults : Obligations.LogicalOperationsResults := fun x y _ hpc =>
  ⟨exec_bits_of_setReg (i := .orReg x y) rfl rfl (fun _ => BitVec.getLsbD_or) hpc,
    exec_bits_of_setReg (i := .andReg x y) rfl rfl (fun _ => BitVec.getLsbD_and) hpc,
    exec_bits_of_setReg (i := .xorReg x y) rfl rfl (fun _ => BitVec.getLsbD_xor) hpc⟩

/-- Log 3: RND moves the model on to the next free byte. -/
theorem exec_rnd_rndIndex {x : Reg} {nn : Byte} {s t : State} (h : exec (.rnd x nn) s = .next t) :
    t.rndIndex = s.rndIndex + 1 :=
  exec_next_of_ensures_commit (P := fun t => t.rndIndex = s.rndIndex + 1) h (ensures_fallThrough.mpr fun _ => rfl)

/-- Settles O33: VX is the free byte at the counter and NN, bit by bit. -/
theorem randomByteIsMasked : Obligations.RandomByteIsMasked := by
  intro x nn s hpc
  obtain ⟨t, ht, hcommitted, hregs, hbits⟩ :=
    exec_bits_of_setReg (i := .rnd x nn) rfl rfl (fun _ => BitVec.getLsbD_and) hpc
  exact ⟨t, ht, hcommitted, hregs, exec_rnd_rndIndex ht, hbits, fun b hnn => by rw [hbits, hnn, Bool.and_false]⟩

end Sys2Proof.Machine
end

section
/-! The index register and data memory (spec/44_index_memory.md): the checks of an access through I, what an instruction that
writes I leaves in it, and the bytes stored and loaded. -/

namespace Sys2Proof.Machine

/-! ## The checks of a data access -/

/-- R76: an instruction that first checks the `n` bytes from I on faults at the lowest of them past Memory. -/
theorem exec_outOfBounds_of_effect {i : Instr} {s : State} {n : Nat} {e : Effect} (hn : n ≠ 0)
    (he : effectOf i s = checkBounds (s.ea 0) n e) (hout : memSize < s.i.toNat + n) :
    exec i s = faultAt s (.memory .outOfBounds) (max s.i.toNat memSize) :=
  exec_fault_of_effect (he.trans (checkBounds_of_outOfBounds e hn hout))

/-- R76, R78: a store of `n` bytes inside Memory, from an address past the glyph table on, passes both checks. -/
theorem storeChecks_of_clear {s : State} {n : Nat} (e : Effect) (hin : s.i.toNat + n ≤ memSize)
    (hg : isGlyphAddr s.i.toNat = false) : checkBounds (s.ea 0) n (checkGlyph (s.ea 0) n e) = e :=
  (checkBounds_of_inBounds _ (.inr hin)).trans (checkGlyph_of_clear e fun _ hj _ => isGlyphAddr_eq_false_of_le hg hj)

/-- R78, D23: a store inside Memory whose first byte lies in the glyph table faults there. -/
theorem exec_glyphWrite_of_effect {i : Instr} {s : State} {n : Nat} {e : Effect} (hn : 0 < n)
    (he : effectOf i s = checkBounds (s.ea 0) n (checkGlyph (s.ea 0) n e)) (hin : s.i.toNat + n ≤ memSize)
    (hg : isGlyphAddr s.i.toNat = true) : exec i s = faultAt s (.memory .glyphWrite) s.i.toNat := by
  refine exec_fault_of_effect (he.trans ((checkBounds_of_inBounds _ (.inr hin)).trans ?_))
  exact checkGlyph_of_hit e (Nat.le_refl _) (Nat.lt_add_of_pos_right hn) hg fun _ hle hlt => absurd hle (Nat.not_le.mpr hlt)

/-! ## Writing I -/

/-- R144, R145: an instruction whose last write is `I <- a` commits at `PC + 2` with `a` in I, and with the registers of the
writes before that (`u`). -/
theorem exec_of_writeI {i : Instr} {s u : State} {a : Nat} (ha : a ≤ 0xFFFF)
    (he : effectOf i s = fallThrough s { u with i := BitVec.ofNat 16 a }) (hpc : s.pc.toNat + 2 < memSize) :
    ∃ t, exec i s = .next t ∧ Committed s t (s.pc.toNat + 2) ∧ t.i.toNat = a ∧ ∀ r, t.reg r = u.reg r := by
  obtain ⟨t, ht, hcommitted, -⟩ := exec_committed_of_effect he hpc
  obtain ⟨hi, hregs⟩ : t.i = BitVec.ofNat 16 a ∧ ∀ r, t.reg r = u.reg r :=
    exec_next_of_ensures_commit (P := fun t => t.i = BitVec.ofNat 16 a ∧ ∀ r, t.reg r = u.reg r) ht <|
      he ▸ ensures_fallThrough.mpr fun _ => ⟨rfl, fun _ => rfl⟩
  exact ⟨t, ht, hcommitted, by rw [hi, BitVec.toNat_ofNat, Nat.mod_eq_of_lt (Nat.lt_succ_of_le ha)], hregs⟩

/-- R241: an increment of I that fits 16 bits. -/
theorem incIndex_of_fits {s : State} (u : State) {n : Nat} (h : s.i.toNat + n ≤ 0xFFFF) :
    incIndex s u n = fallThrough s { u with i := BitVec.ofNat 16 (s.i.toNat + n) } :=
  incIndex_eq_writes.mpr ⟨h, rfl, rfl⟩

/-- R241, D16: an increment of I past 0xFFFF faults at I. -/
theorem incIndex_of_overflow {s : State} (u : State) {n : Nat} (h : 0xFFFF < s.i.toNat + n) :
    incIndex s u n = .raises (.memory .indexOverflow) s.i.toNat := if_pos h

/-- R245: the glyph of a digit up to 15. -/
theorem pointAtGlyph_of_le {s : State} {x : Reg} (h : (s.reg x).toNat ≤ 15) :
    pointAtGlyph x s = fallThrough s { s with i := BitVec.ofNat 16 (glyphBase + glyphBytes * (s.reg x).toNat) } :=
  pointAtGlyph_eq_writes.mpr ⟨Nat.lt_succ_of_le h, rfl, rfl⟩

/-- R246, D17: a digit past 15 has no glyph. -/
theorem pointAtGlyph_of_gt {s : State} {x : Reg} (h : 15 < (s.reg x).toNat) :
    pointAtGlyph x s = .raises (.operand .glyphIndex) s.pc.toNat := by
  have hnone : s.glyphOperand x = none := if_neg (Nat.not_lt.mpr h)
  rw [pointAtGlyph, hnone]

/-- The glyph table lies where I can point. -/
theorem glyphAddress_le {d : Nat} (h : d ≤ 15) : glyphBase + glyphBytes * d ≤ 0xFFFF := by
  simp only [glyphBase, glyphBytes]
  omega

/-- Settles O42: the value each rule gives I fits 16 bits wherever its check passes. -/
theorem indexRegisterResults : Obligations.IndexRegisterResults := by
  intro x nnn s
  refine ⟨fun hpc => ?ldI, fun hpc hfit => ?addIX, fun hover => ?overflow, fun hpc hle => ?ldFX, fun hgt => ?digit⟩
  case ldI =>
    obtain ⟨t, ht, hcommitted, hi, -⟩ :=
      exec_of_writeI (i := .ldI nnn) ((addrOperand_lt nnn).le.trans (by decide)) rfl hpc
    exact ⟨t, ht, hcommitted, hi⟩
  case addIX =>
    obtain ⟨t, ht, hcommitted, hi, hregs⟩ := exec_of_writeI (i := .addIX x) hfit (incIndex_of_fits s hfit) hpc
    exact ⟨t, ht, hcommitted, hi, fun r _ => hregs r⟩
  case overflow => exact exec_fault_of_effect (i := .addIX x) (incIndex_of_overflow s hover)
  case ldFX =>
    obtain ⟨t, ht, hcommitted, hi, -⟩ := exec_of_writeI (i := .ldFX x) (glyphAddress_le hle) (pointAtGlyph_of_le hle) hpc
    exact ⟨t, ht, hcommitted, hi⟩
  case digit => exact exec_fault_of_effect (i := .ldFX x) (pointAtGlyph_of_gt hgt)

/-! ## Stores through I -/

@[simp] theorem length_bcdDigits (b : Byte) : (bcdDigits b).length = 3 := rfl

/-- R247: an FX33 that succeeds has stored the three digits from I on. -/
theorem exec_ldBX_mem {x : Reg} {s t : State} (h : exec (.ldBX x) s = .next t) :
    s.i.toNat + 3 ≤ memSize ∧ t.mem = s.mem.writeBytes s.i.toNat (bcdDigits (s.reg x)) := by
  refine exec_next_of_ensures_commit
    (P := fun t => s.i.toNat + 3 ≤ memSize ∧ t.mem = s.mem.writeBytes s.i.toNat (bcdDigits (s.reg x))) h ?_
  exact ensures_checkBounds.mpr fun hb => ensures_checkGlyph.mpr fun _ => ensures_fallThrough.mpr fun _ =>
    ⟨hb.resolve_left (by decide), rfl⟩

/-- R247: byte `I + j` of Memory then reads as digit `j`. -/
theorem exec_ldBX_read {x : Reg} {s t : State} (hm : s.mem.wf = true) (h : exec (.ldBX x) s = .next t) (j : Fin 3) :
    t.mem.read (s.i.toNat + j.val) = (bcdDigits (s.reg x))[j] := by
  obtain ⟨hb, hmem⟩ := exec_ldBX_mem h
  rw [hmem]
  exact Memory.read_writeBytes_inside hm (bcdDigits (s.reg x)) j.isLt hb

/-- R247: the digits are hundreds, tens and ones as numbers; each fits a byte. -/
theorem bcdDigits_toNat (b : Byte) :
    (bcdDigits b)[0].toNat = b.toNat / 100 ∧ (bcdDigits b)[1].toNat = b.toNat % 100 / 10 ∧
      (bcdDigits b)[2].toNat = b.toNat % 10 := by
  have hb := b.isLt
  simp only [bcdDigits, List.getElem_cons_zero, List.getElem_cons_succ, BitVec.toNat_ofNat]
  omega

/-- Settles O43: past the checks the three bytes are the digits, and the rule does not list I. -/
theorem bcdStoreWritesThreeDigits : Obligations.BcdStoreWritesThreeDigits := by
  refine fun x s => ⟨fun hin hg hpc => ?stores,
    exec_outOfBounds_of_effect (i := .ldBX x) (by decide) rfl, exec_glyphWrite_of_effect (i := .ldBX x) (by decide) rfl⟩
  obtain ⟨t, ht, hcommitted, hkept⟩ := exec_committed_of_effect (i := .ldBX x) (storeChecks_of_clear _ hin hg) hpc
  refine ⟨t, ht, hcommitted, hkept .i (by simp [writtenParts]), fun hm => ?digits⟩
  have hread := exec_ldBX_read hm ht
  obtain ⟨hhundreds, htens, hones⟩ := bcdDigits_toNat (s.reg x)
  exact ⟨(congrArg _ (hread 0)).trans hhundreds, (congrArg _ (hread 1)).trans htens, (congrArg _ (hread 2)).trans hones⟩

/-- Settles O44: past the checks the bytes are the registers, and a range inside Memory ends where I can point. -/
theorem registerDumpStoresV0ToVX : Obligations.RegisterDumpStoresV0ToVX := by
  refine fun x s => ⟨fun hin hg hpc => ?stores, exec_outOfBounds_of_effect (i := .ldMemX x) (Nat.succ_ne_zero _) rfl,
    exec_glyphWrite_of_effect (i := .ldMemX x) (Nat.succ_pos _) rfl⟩
  have hfit := index_le_of_inBounds hin
  obtain ⟨t, ht, hcommitted, hi, -⟩ := exec_of_writeI (i := .ldMemX x) hfit
    ((storeChecks_of_clear _ hin hg).trans (incIndex_of_fits _ hfit)) hpc
  exact ⟨t, ht, hcommitted, hi, fun hm _ hr => exec_ldMemX_read hm ht hr⟩

/-! ## Loads through I -/

/-- Settles O45: past the check the registers are those of the loads, and a range inside Memory ends where I can point. -/
theorem registerLoadReadsV0ToVX : Obligations.RegisterLoadReadsV0ToVX := by
  refine fun x s => ⟨fun hin hpc => ?loads, exec_outOfBounds_of_effect (i := .ldXMem x) (Nat.succ_ne_zero _) rfl⟩
  have hfit := index_le_of_inBounds hin
  obtain ⟨t, ht, hcommitted, hi, hregs⟩ := exec_of_writeI (i := .ldXMem x) hfit
    ((checkBounds_of_inBounds (a := s.ea 0) _ (.inr hin)).trans (incIndex_of_fits (s.loadRegs x) hfit)) hpc
  exact ⟨t, ht, hcommitted, hi, fun r => (hregs r).trans (s.reg_loadRegs x r)⟩

end Sys2Proof.Machine
end

section
/-! The display (spec/45_display.md): CLS, what one draw does under either edge policy, and the same draw made twice. -/

namespace Sys2Proof.Machine

/-! ## CLS -/

/-- R270: a CLS that succeeds leaves the blank framebuffer. -/
theorem exec_cls_fb {s t : State} (h : exec .cls s = .next t) : t.fb = Framebuffer.blank :=
  exec_next_of_ensures_commit (P := fun t => t.fb = Framebuffer.blank) h (ensures_fallThrough.mpr fun _ => rfl)

/-- Settles O46: the rule lists the framebuffer and `draw`, and no register. -/
theorem clsClearsTheScreen : Obligations.ClsClearsTheScreen := by
  refine fun s => ⟨fun hpc => ?clears, fun hend => exec_fallsOff hend rfl⟩
  obtain ⟨t, ht, hcommitted, -⟩ := exec_committed_of_effect (i := .cls) rfl hpc
  exact ⟨t, ht, hcommitted, fun c => exec_cls_fb ht ▸ Framebuffer.lit_blank c, exec_draw_eq_true (.inl rfl) ht,
    instructionsWriteOnlyTheirListedRegisters .cls s t ht⟩

/-! ## What the drawing loop leaves -/

section
variable {edge : DrawEdge} {x y : Reg} {n : Nibble} {s t : State}

/-- A set bit of DXYN's sprite, drawn at `s`, lands on cell `c`. -/
def DrawCovers (edge : DrawEdge) (x y : Reg) (n : Nibble) (s : State) (c : Cell) : Prop :=
  SpriteCovers edge s (s.reg x).toNat (s.reg y).toNat n.toNat c

/-- The cells of the drawing loop are those the sprite covers. -/
theorem mem_drawTargets {c : Cell} :
    c ∈ spriteTargets edge (s.reg x).toNat (s.reg y).toNat (s.loadThroughI n.toNat) ↔ DrawCovers edge x y n s c :=
  mem_spriteTargets_loadThroughI edge s _ _ _ c

/-- R272: a sprite has at most 15 rows, so no two of its bits share a cell. -/
theorem nodup_drawTargets : (spriteTargets edge (s.reg x).toNat (s.reg y).toNat (s.loadThroughI n.toNat)).Nodup := by
  have hrows := n.isLt
  refine nodup_spriteTargets edge _ _ _ ?_
  rw [State.loadThroughI, Memory.length_readBytes]
  omega

/-- R271: exactly the covered cells change. -/
theorem drawSprite_lit_ne_iff {c : Cell} :
    (s.drawSprite edge x y (s.loadThroughI n.toNat)).fb.lit c ≠ s.fb.lit c ↔ DrawCovers edge x y n s c := by
  rw [State.drawSprite_fb, lit_drawCells _ _ nodup_drawTargets, ← mem_drawTargets]
  cases s.fb.lit c <;> simp

/-- VF is the loop's collision flag, also where X or Y is F (R274, D13). -/
theorem drawSprite_reg_VF (rows : List Byte) :
    (s.drawSprite edge x y rows).reg VF =
      flagByte (drawCells s.fb (spriteTargets edge (s.reg x).toNat (s.reg y).toNat rows)).2 := by
  rw [State.drawSprite, State.reg_setReg, if_pos rfl]

/-- R272: the flag is 1 exactly where a covered cell was lit. -/
theorem drawSprite_reg_VF_eq_one_iff :
    (s.drawSprite edge x y (s.loadThroughI n.toNat)).reg VF = 1 ↔ ∃ c, DrawCovers edge x y n s c ∧ s.fb.lit c = true := by
  rw [drawSprite_reg_VF, flagByte_eq_one, drawCells_collision _ _ nodup_drawTargets, List.any_eq_true]
  simp only [mem_drawTargets]

/-! ## The draw and its two faults -/

/-- R271, R147: a draw succeeds exactly with its rows and its next PC inside Memory. -/
theorem drawWith_eq_next :
    drawWith edge x y n s = .next t ↔ (n.toNat = 0 ∨ s.i.toNat + n.toNat ≤ memSize) ∧ s.pc.toNat + 2 < memSize ∧
      t = commitState (s.drawSprite edge x y (s.loadThroughI n.toNat)) (s.pc.toNat + 2) := by
  rw [drawWith, finish_eq_next]
  simp only [checkBounds_eq_writes, fallThrough_eq_writes]
  constructor
  · rintro ⟨_, _, ⟨hin, rfl, rfl⟩, hpc, rfl⟩
    exact ⟨hin, hpc, rfl⟩
  · rintro ⟨hin, hpc, rfl⟩
    exact ⟨_, _, ⟨hin, rfl, rfl⟩, hpc, rfl⟩

/-- R147, D7: with its rows inside Memory and its next PC past the end, a draw faults there. -/
theorem drawWith_fallsOff (hin : n.toNat = 0 ∨ s.i.toNat + n.toNat ≤ memSize) (hend : memSize ≤ s.pc.toNat + 2) :
    drawWith edge x y n s = faultAt s (.memory .pcOutOfRange) (s.pc.toNat + 2) :=
  (congrArg (finish s) (checkBounds_of_inBounds _ hin)).trans (finish_writes_of_ge s _ hend)

/-- R271, D37: a draw with a row out of bounds faults at the lowest bad address. -/
theorem drawWith_outOfBounds (hn : n.toNat ≠ 0) (hout : memSize < s.i.toNat + n.toNat) :
    drawWith edge x y n s = faultAt s (.memory .outOfBounds) (max s.i.toNat memSize) :=
  congrArg (finish s) (checkBounds_of_outOfBounds _ hn hout)

/-- `t` is what a draw at `s` leaves, as the statements read it. -/
structure Drew (edge : DrawEdge) (x y : Reg) (n : Nibble) (s t : State) : Prop where
  /-- R145. -/
  committed : Committed s t (s.pc.toNat + 2)
  /-- R271: exactly the covered cells change. -/
  toggles : ∀ c : Cell, t.fb.lit c ≠ s.fb.lit c ↔ DrawCovers edge x y n s c
  /-- R272: VF tells whether a covered cell was lit. -/
  collides : t.reg VF = 1 ↔ ∃ c : Cell, DrawCovers edge x y n s c ∧ s.fb.lit c = true
  /-- R272: VF holds a flag. -/
  flag : t.reg VF = 0 ∨ t.reg VF = 1
  /-- R42: the dirty flag is set. -/
  draw : t.draw = true
  /-- D40: the pieces of state the rule does not list. -/
  kept : KeptExcept s t [.regs, .fb, .draw]
  /-- R32: VF is the one register written. -/
  regs : RegsUnchangedExcept s t [VF]

/-- A draw that succeeds has committed the writes of the drawing loop. -/
theorem drew_of_drawWith (h : drawWith edge x y n s = .next t) : Drew edge x y n s t := by
  obtain ⟨-, hpc, rfl⟩ := drawWith_eq_next.mp h
  exact {
    committed := ⟨commitState_pc_toNat _ hpc, rfl⟩
    toggles := fun _ => drawSprite_lit_ne_iff
    collides := drawSprite_reg_VF_eq_one_iff
    flag := by
      rw [commitState_reg, drawSprite_reg_VF, flagByte]
      split <;> simp
    draw := rfl
    kept := by simp [keptExcept_iff]
    regs := regsUnchangedExcept_drawSprite s edge x y _ }

variable (edge x y) in
/-- R144, R145: with its rows and its next PC inside Memory, a draw completes. -/
theorem exists_drew (hin : n.toNat = 0 ∨ s.i.toNat + n.toNat ≤ memSize) (hpc : s.pc.toNat + 2 < memSize) :
    ∃ t, drawWith edge x y n s = .next t ∧ Drew edge x y n s t := by
  have hnext := (drawWith_eq_next (edge := edge) (x := x) (y := y)).mpr ⟨hin, hpc, rfl⟩
  exact ⟨_, hnext, drew_of_drawWith hnext⟩

/-! ## The same draw twice -/

/-- The rows and the coordinates of a draw are those of the draw before it, where that one left VX and VY. -/
theorem Drew.drawCovers_iff (h : Drew edge x y n s t) (hx : t.reg x = s.reg x) (hy : t.reg y = s.reg y) (c : Cell) :
    DrawCovers edge x y n t c ↔ DrawCovers edge x y n s c := by
  have hi : t.i = s.i := h.kept .i (by simp)
  have hmem : t.mem = s.mem := h.kept .mem (by simp)
  simp only [DrawCovers, SpriteCovers, hi, hmem, hx, hy]

/-- R275: a second draw of the same cells toggles each of them back. -/
theorem Drew.lit_restored {u : State} (hst : Drew edge x y n s t) (htu : Drew edge x y n t u)
    (hcovers : ∀ c, DrawCovers edge x y n t c ↔ DrawCovers edge x y n s c) (c : Cell) : u.fb.lit c = s.fb.lit c := by
  have hagree : u.fb.lit c ≠ t.fb.lit c ↔ t.fb.lit c ≠ s.fb.lit c :=
    (htu.toggles c).trans ((hcovers c).trans (hst.toggles c).symm)
  by_cases hsame : t.fb.lit c = s.fb.lit c
  · exact (not_not.mp (mt hagree.mp (not_not.mpr hsame))).trans hsame
  · rw [Bool.eq_not.mpr (hagree.mpr hsame), Bool.eq_not.mpr hsame, Bool.not_not]

/-- R271: a covered cell is lit after the draw exactly where it was dark before. -/
theorem Drew.covers_and_lit_iff (h : Drew edge x y n s t) (c : Cell) :
    DrawCovers edge x y n s c ∧ t.fb.lit c = true ↔ s.fb.lit c = false ∧ t.fb.lit c = true := by
  rw [← h.toggles c]
  cases s.fb.lit c <;> simp

/-- R271: a covered cell that was dark is lit after the draw. -/
theorem Drew.lit_of_dark (h : Drew edge x y n s t) {c : Cell} (hc : DrawCovers edge x y n s c)
    (hdark : s.fb.lit c = false) : t.fb.lit c = true := by
  simpa [hdark] using (h.toggles c).mpr hc

end

/-! ## The obligations -/

/-- Settles O47: exec of DXYN is the draw under `Clip`. -/
theorem drwTogglesTheSpriteAndReportsCollision : Obligations.DrwTogglesTheSpriteAndReportsCollision := by
  refine fun x y n s => ⟨fun hin hpc => ?draws, drawWith_outOfBounds⟩
  obtain ⟨t, ht, hdrew⟩ := exists_drew .clip x y hin hpc
  exact ⟨t, ht, hdrew.committed, hdrew.toggles, hdrew.collides, hdrew.flag, hdrew.draw, hdrew.kept .i (by simp), hdrew.regs⟩

/-- Settles O48: what a draw does is said for either policy. -/
theorem drwUnderWrapTogglesModuloTheScreen : Obligations.DrwUnderWrapTogglesModuloTheScreen := by
  refine fun x y n s => ⟨fun hin hpc => ?draws, drawWith_fallsOff, drawWith_outOfBounds⟩
  obtain ⟨t, ht, hdrew⟩ := exists_drew .wrap x y hin hpc
  exact ⟨t, ht, hdrew.committed, hdrew.toggles, hdrew.collides, hdrew.flag, hdrew.draw,
    fun p hp => (hdrew.kept p hp).same, hdrew.regs⟩

/-- Settles O49: both draws cover the same cells, so the second toggles them back and collides where the first left one lit. -/
theorem drawingTwiceRestoresTheScreen : Obligations.DrawingTwiceRestoresTheScreen := by
  refine ⟨fun edge x y n s t hdraw hx hy hpc => ?twice, fun _ _ _ _ => rfl⟩
  obtain ⟨hin, -⟩ := drawWith_eq_next.mp hdraw
  have hst := drew_of_drawWith hdraw
  have hi : t.i = s.i := hst.kept .i (by simp)
  have hcovers := hst.drawCovers_iff hx hy
  obtain ⟨u, hu, htu⟩ := exists_drew edge x y (n := n) (hi.symm ▸ hin) hpc
  have hflag : u.reg VF = 1 ↔ ∃ c, DrawCovers edge x y n s c ∧ t.fb.lit c = true := by
    simp only [htu.collides, hcovers]
  refine ⟨u, hu, hst.lit_restored htu hcovers, ?lit, fun hdark => ?dark⟩
  case lit => simp only [hflag, hst.covers_and_lit_iff]
  case dark => exact hflag.trans (exists_congr fun c => and_iff_left_of_imp fun hc => hst.lit_of_dark hc (hdark c hc))

end Sys2Proof.Machine
end

section
/-! The timers and the input latch (spec/46_timer_input.md): the three timer transfers, and the key wait's two outcomes. -/

namespace Sys2Proof.Machine

/-! ## The key wait -/

/-- R291: with a key found FX0A writes its index to VX and falls through. -/
theorem effectOf_ldXK_of_lowestKey (x : Reg) {s : State} {k : Key} (hk : s.lowestKey = some k) :
    effectOf (.ldXK x) s = fallThrough s (s.setReg x (keyByte k)) :=
  waitForKey_eq_writes.mpr (.inr ⟨k, hk, rfl, rfl⟩)

/-- R291, R292: while the latch is not 0 some key is the lowest held. -/
theorem State.exists_lowestKey {s : State} (hk : s.keys ≠ 0) : ∃ k, s.lowestKey = some k :=
  Option.ne_none_iff_exists'.mp (mt s.lowestKey_eq_none.mp hk)

/-- R292, D18: the bits of the latch below the lowest key held are 0. -/
theorem State.getLsbD_keys_of_lt_lowestKey {s : State} {k : Key} (hk : s.lowestKey = some k) {j : Nat} (hj : j < k.val) :
    s.keys.getLsbD j = false :=
  ((s.lowestKey_eq_some k).mp hk).2 ⟨j, hj.trans k.isLt⟩ hj

/-- Settles O51: FX0A's write is the lowest key's index wherever the latch is not 0, and no instruction lists KEYS. -/
theorem keyWaitTakesTheLowestKeyHeld : Obligations.KeyWaitTakesTheLowestKeyHeld := by
  refine fun x s => ⟨fun hk hpc => ?waits, fun hk hpc => ?captures⟩
  case waits =>
    have hframe : KeptExcept s { s with cycles := s.cycles + 1 } [] := by simp [keptExcept_iff]
    exact ⟨_, exec_ldXK_of_keys_eq_zero hk hpc, ⟨rfl, rfl⟩, fun p hp => (hframe p hp).same⟩
  case captures =>
    obtain ⟨k, hlow⟩ := State.exists_lowestKey hk
    obtain ⟨hheld, -⟩ := (s.lowestKey_eq_some k).mp hlow
    obtain ⟨t, ht, hcommitted, hx, hregs⟩ :=
      exec_of_setReg (i := .ldXK x) rfl (effectOf_ldXK_of_lowestKey x hlow) hpc
    have hkeys : t.keys = s.keys := exec_keptExcept ht .keys (keys_notMem_writtenParts _)
    exact ⟨k.val, t, ht, hcommitted, hx ▸ keyByte_toNat k, hheld,
      fun _ hj => State.getLsbD_keys_of_lt_lowestKey hlow hj, hkeys, hregs⟩

/-! ## The timer transfers -/

/-- R46: no instruction that succeeds touches `tone`. -/
theorem exec_next_tone {i : Instr} {s t : State} (h : exec i s = .next t) : t.tone = s.tone :=
  exec_keptExcept h .tone (tone_notMem_writtenParts i)

/-- Settles O50: each rule lists its one destination, and `tone` is in no list. -/
theorem timerTransfers : Obligations.TimerTransfers := by
  refine fun x s => ⟨fun hpc => ⟨?ldXDt, ?ldDtX, ?ldStX⟩, fun hend i hi => ?fault⟩
  case ldXDt =>
    obtain ⟨t, ht, hcommitted, hx, hregs⟩ := exec_of_setReg (i := .ldXDt x) rfl rfl hpc
    have hdt : t.dt = s.dt := exec_keptExcept ht .dt (by simp [writtenParts])
    exact ⟨t, ht, hcommitted, hx, hdt, exec_next_tone ht, hregs⟩
  case ldDtX =>
    obtain ⟨t, ht, hcommitted, -⟩ := exec_committed_of_effect (i := .ldDtX x) rfl hpc
    exact ⟨t, ht, hcommitted, exec_ldDtX_dt ht, exec_next_tone ht, instructionsWriteOnlyTheirListedRegisters _ s t ht⟩
  case ldStX =>
    obtain ⟨t, ht, hcommitted, -⟩ := exec_committed_of_effect (i := .ldStX x) rfl hpc
    exact ⟨t, ht, hcommitted, exec_ldStX_st ht, exec_next_tone ht, instructionsWriteOnlyTheirListedRegisters _ s t ht⟩
  case fault => fin_cases hi <;> exact exec_fallsOff hend rfl

end Sys2Proof.Machine
end

section
/-! What the host does between steps (spec/60_exceptions.md R330 to R335; spec/70_reset_and_hazards.md R351 to R354): the key
events, the timers, the load and the reset, each with its frame, and the glyph table under every transaction. -/

namespace Sys2Proof.Machine

/-! ## The frame of a host operation -/

/-- A host operation leaves every piece of state outside its own alone, as read. -/
theorem transact_unchangedExcept (s : State) {tr : Transaction} (htr : tr ≠ .step) :
    UnchangedExcept s (transact s tr).1 tr.ownParts :=
  fun p hp => (transact_keptExcept htr p hp).same

/-! ## The key events -/

/-- R330: bit `j` of the latch after `key_down`, for `j` past the sixteen keys too. -/
theorem State.getLsbD_keyDown_keys (s : State) (k : Key) (j : Nat) :
    (s.keyDown k).keys.getLsbD j = (s.keys.getLsbD j || decide (j = k.val)) := by
  by_cases hj : j < 16
  · simpa only [State.keyHeld, Fin.ext_iff] using s.keyHeld_keyDown k ⟨j, hj⟩
  · have hne : j ≠ k.val := fun h => hj (h ▸ k.isLt)
    simp [BitVec.getLsbD_of_ge _ _ (Nat.not_lt.mp hj), hne]

/-- R330: bit `j` of the latch after `key_up`, for `j` past the sixteen keys too. -/
theorem State.getLsbD_keyUp_keys (s : State) (k : Key) (j : Nat) :
    (s.keyUp k).keys.getLsbD j = (s.keys.getLsbD j && decide (j ≠ k.val)) := by
  by_cases hj : j < 16
  · simpa only [State.keyHeld, ne_eq, Fin.ext_iff] using s.keyHeld_keyUp k ⟨j, hj⟩
  · simp [BitVec.getLsbD_of_ge _ _ (Nat.not_lt.mp hj)]

/-- Settles O55: the bit laws of the two events, and the latch as the one piece of state they list. -/
theorem keyEventsSetAndClearOneBit : Obligations.KeyEventsSetAndClearOneBit := by
  refine fun s k => ⟨s.getLsbD_keyDown_keys k, s.getLsbD_keyUp_keys k, fun tr htr => ?frame⟩
  obtain rfl | rfl := htr
  · exact ⟨rfl, transact_unchangedExcept s (tr := .keyDown k) nofun, rfl, rfl⟩
  · exact ⟨rfl, transact_unchangedExcept s (tr := .keyUp k) nofun, rfl, rfl⟩

/-! ## The timers and the dirty flag -/

/-- R333: a tick is a subtraction with a floor of 0. -/
theorem tick_toNat (t : Byte) : (tick t).toNat = t.toNat - 1 := by
  rw [tick]
  split
  next h => rw [h]; rfl
  next h => bv_omega

/-- R333: `dec_timers` sets `tone` exactly when the sound timer stands at 1. -/
theorem State.decTimers_tone_eq_true (s : State) : s.decTimers.tone = true ↔ s.st.toNat = 1 := by
  rw [State.decTimers_tone, byte_beq_eq_decide_toNat, decide_eq_true_iff]
  rfl

/-- Settles O56: both timers tick, and each operation's frame is what it lists. -/
theorem decTimersAndClearDraw : Obligations.DecTimersAndClearDraw := fun s =>
  ⟨tick_toNat s.dt, tick_toNat s.st, s.decTimers_tone_eq_true,
    transact_unchangedExcept s (tr := .decTimers) nofun, rfl, rfl,
    s.clearDraw_draw, transact_unchangedExcept s (tr := .clearDraw) nofun, rfl, rfl⟩

/-! ## The load -/

/-- R352: an image that fits is written from `PROG_OFFSET` on. -/
theorem transact_load_of_fits (s : State) {image : List Byte} (h : image.length ≤ progWindow) :
    transact s (.load image) = ({ s with mem := s.mem.writeBytes progOffset image }, .ok) := by
  rw [transact, State.load_eq_some.mpr ⟨h, rfl⟩]

/-- R352, D27: an image longer than the program window is rejected. -/
theorem transact_load_of_too_long (s : State) {image : List Byte} (h : progWindow < image.length) :
    transact s (.load image) = (s, .loadFault) := by
  rw [transact, State.load, if_pos h]

/-- R6: the program window ends inside Memory. -/
theorem progWindow_inBounds {n : Nat} (h : n ≤ progWindow) : progOffset + n ≤ memSize :=
  (Nat.add_le_add_left h progOffset).trans (by decide)

/-- Settles O57: the copy is one string of bytes written inside Memory. -/
theorem loadCopiesTheImageOrRejectsIt : Obligations.LoadCopiesTheImageOrRejectsIt := by
  refine fun s image => ⟨fun hfit => ?copies, transact_load_of_too_long s⟩
  have hload := transact_load_of_fits s hfit
  have hframe := transact_unchangedExcept s (tr := .load image) nofun
  rw [hload] at hframe
  refine ⟨_, hload, hframe, rfl, rfl, memUnchangedOutside_of_writeBytes rfl rfl, fun hm j b hj => ?readback⟩
  obtain ⟨hlt, rfl⟩ := List.getElem?_eq_some_iff.mp hj
  exact Memory.read_writeBytes_inside hm image hlt (progWindow_inBounds hfit)

/-! ## The reset -/

/-- R354: every general register is 0 after the reset. -/
theorem State.reg_hostReset (s : State) (r : Reg) : s.hostReset.reg r = 0 := by
  simp [State.reg]

/-- Settles O58: by the laws of the reset, field by field. -/
theorem hostResetRestoresTheDynamicState : Obligations.HostResetRestoresTheDynamicState := fun s =>
  ⟨s.reg_hostReset, s.hostReset_i, congrArg BitVec.toNat s.hostReset_pc, s.hostReset_sp, s.hostReset_dt, s.hostReset_st,
    s.hostReset_running, s.hostReset_fault, s.hostReset_mem, s.hostReset_fb, s.hostReset_draw, s.hostReset_keys,
    s.hostReset_cycles, s.hostReset_tone⟩

/-! ## The glyph table -/

theorem Transaction.mem_mem_ownParts {tr : Transaction} (h : Part.mem ∈ tr.ownParts) : ∃ image, tr = .load image := by
  cases tr <;> simp_all [ownParts]

/-- An instruction that succeeds stores inside Memory and off the glyph table, or nothing. -/
theorem exec_next_clearStore {i : Instr} {s t : State} (h : exec i s = .next t) : ClearStore s.mem t.mem :=
  exec_next_of_ensures_commit (P := fun t => ClearStore s.mem t.mem) h fun u n hu _ =>
    effectOf_ensures_clearStore i s u n hu

/-- R352: the program window lies above the glyph table, so a load stores off it, or nothing. -/
theorem clearStore_load (s : State) (image : List Byte) : ClearStore s.mem (transact s (.load image)).1.mem := by
  obtain hfit | hlong := le_or_gt image.length progWindow
  · rw [transact_load_of_fits s hfit]
    exact .writeBytes_above (by decide) (progWindow_inBounds hfit)
  · rw [transact_load_of_too_long s hlong]
    exact .refl _

/-- R351: Memory changes only by a load or by an instruction that succeeds, and both stay off the glyph table. -/
theorem transact_clearStore (s : State) (tr : Transaction) : ClearStore s.mem (transact s tr).1.mem := by
  by_cases hkept : Part.mem.Kept s (transact s tr).1
  · have hmem : (transact s tr).1.mem = s.mem := hkept
    exact hmem ▸ .refl _
  · obtain hown | ⟨-, i, -, -, he⟩ := transact_writes hkept
    · obtain ⟨image, rfl⟩ := Transaction.mem_mem_ownParts hown
      exact clearStore_load s image
    · exact exec_next_clearStore he

/-- Settles O17: a store off the glyph table leaves its bytes as they read, in any memory. -/
theorem glyphTableIsNeverWritten : Obligations.GlyphTableIsNeverWritten :=
  fun s tr _ ha => (transact_clearStore s tr).read_glyph ha

end Sys2Proof.Machine
end
